-- ==== Sys2Proof/Word.lean ====
section
/-! DEFINITION. The words of the machine and their plainest arithmetic (00_scope.md R7: every value is
unsigned; every widening is a zero extension). -/

namespace Sys2Proof

/-- A memory cell, a general register, a timer (10_state.md R10, R13, R14, R21). -/
abbrev Byte := BitVec 8

/-- An instruction word, the pc, I, a stack slot (10_state.md R12, R15, R18). -/
abbrev Word := BitVec 16

/-- A 4-bit field: the index of a register, a row count (30_encoding.md R61). -/
abbrev Nibble := BitVec 4

/-- The 12-bit field `nnn` (30_encoding.md R61). -/
abbrev Addr12 := BitVec 12

/-- `zext_16(v)`: v as a 16-bit value with zeros above (00_scope.md R7). -/
abbrev zext16 {n : Nat} (v : BitVec n) : Word := v.setWidth 16

end Sys2Proof
end

