-- ==== Sys2Proof/Syntax.lean ====
section
/-! DEFINITION. The instructions: one constructor for each row of spec/opcode_table.json, with the fields the
row gives, the ignored ones too, so that no bit of a word is lost (30_encoding.md R61 to R69). -/

namespace Sys2Proof

/-- The 34 instructions (30_encoding.md R64). `x` and `y` are register indices, `ign` a field that is present
in the word and ignored by the machine. -/
inductive Instr where
  /-- CLS, `00E0` (43_display.md R140). -/
  | cls
  /-- RET, `00EE` (40_control_transfer.md R80). -/
  | ret
  /-- JP nnn, `1nnn` (40_control_transfer.md R81). -/
  | jp (nnn : Addr12)
  /-- CALL nnn, `2nnn` (40_control_transfer.md R82). -/
  | call (nnn : Addr12)
  /-- SE Vx,kk, `3xkk` (40_control_transfer.md R83). -/
  | seImm (x : Nibble) (kk : Byte)
  /-- SNE Vx,kk, `4xkk` (40_control_transfer.md R84). -/
  | sneImm (x : Nibble) (kk : Byte)
  /-- SE Vx,Vy, `5xy-` (40_control_transfer.md R85). -/
  | seReg (x y ign : Nibble)
  /-- LD Vx,kk, `6xkk` (41_load_alu.md R100). -/
  | ldImm (x : Nibble) (kk : Byte)
  /-- ADD Vx,kk, `7xkk` (41_load_alu.md R101). -/
  | addImm (x : Nibble) (kk : Byte)
  /-- LD Vx,Vy, `8xy0` (41_load_alu.md R102). -/
  | ldReg (x y : Nibble)
  /-- OR Vx,Vy, `8xy1` (41_load_alu.md R103). -/
  | orReg (x y : Nibble)
  /-- AND Vx,Vy, `8xy2` (41_load_alu.md R104). -/
  | andReg (x y : Nibble)
  /-- XOR Vx,Vy, `8xy3` (41_load_alu.md R105). -/
  | xorReg (x y : Nibble)
  /-- ADD Vx,Vy, `8xy4` (41_load_alu.md R106). -/
  | addReg (x y : Nibble)
  /-- SUB Vx,Vy, `8xy5` (41_load_alu.md R107). -/
  | subReg (x y : Nibble)
  /-- SHR Vx, `8x-6` (41_load_alu.md R111). -/
  | shr (x ign : Nibble)
  /-- SUBN Vx,Vy, `8xy7` (41_load_alu.md R112). -/
  | subnReg (x y : Nibble)
  /-- SHL Vx, `8x-E` (41_load_alu.md R113). -/
  | shl (x ign : Nibble)
  /-- SNE Vx,Vy, `9xy-` (40_control_transfer.md R86). -/
  | sneReg (x y ign : Nibble)
  /-- LD I,nnn, `Annn` (42_index_memory.md R120). -/
  | ldI (nnn : Addr12)
  /-- JP V0,nnn, `Bnnn` (40_control_transfer.md R87). -/
  | jpV0 (nnn : Addr12)
  /-- RND Vx,kk, `Cxkk` (41_load_alu.md R114). -/
  | rnd (x : Nibble) (kk : Byte)
  /-- DRW Vx,Vy,n, `Dxyn` (43_display.md R141). -/
  | drw (x y n : Nibble)
  /-- SKP Vx, `Ex9E` (44_keypad_timers.md R160). -/
  | skp (x : Nibble)
  /-- SKNP Vx, `ExA1` (44_keypad_timers.md R161). -/
  | sknp (x : Nibble)
  /-- LD Vx,DT, `Fx07` (44_keypad_timers.md R162). -/
  | ldVxDt (x : Nibble)
  /-- LD Vx,K, `Fx0A` (44_keypad_timers.md R164). -/
  | ldVxK (x : Nibble)
  /-- LD DT,Vx, `Fx15` (44_keypad_timers.md R165). -/
  | ldDtVx (x : Nibble)
  /-- LD ST,Vx, `Fx18` (44_keypad_timers.md R166). -/
  | ldStVx (x : Nibble)
  /-- ADD I,Vx, `Fx1E` (42_index_memory.md R121). -/
  | addI (x : Nibble)
  /-- LD F,Vx, `Fx29` (42_index_memory.md R122). -/
  | ldF (x : Nibble)
  /-- LD B,Vx, `Fx33` (42_index_memory.md R123). -/
  | ldB (x : Nibble)
  /-- LD [I],Vx, `Fx55` (42_index_memory.md R124). -/
  | storeRegs (x : Nibble)
  /-- LD Vx,[I], `Fx65` (42_index_memory.md R125). -/
  | loadRegs (x : Nibble)
deriving DecidableEq, Repr

end Sys2Proof
end

