-- ==== Sys2Proof/Decode.lean ====
section
/-! DEFINITION. From the 16-bit word to an instruction, total, with every unsupported word rejected by name
(30_encoding.md R60 to R76), and back. The numerals the source does not print are the spec's own (log 12). -/

namespace Sys2Proof

/-- Why bytes are no instruction. The first four are the unsupported words of 30_encoding.md R70, by family;
the machine runs them as a no-operation with a diagnostic (R71), so none of them is a stop. -/
inductive Reject where
  /-- A word of family 0 other than `00E0` and `00EE` (R65). -/
  | family0
  /-- A word of family 8 whose low nibble selects nothing (R66). -/
  | family8
  /-- A word of family E whose low byte selects nothing (R67). -/
  | familyE
  /-- A word of family F whose low byte selects nothing (R68). -/
  | familyF
  /-- Fewer than two bytes: no word at all (R60). -/
  | truncated
deriving DecidableEq, Repr

namespace Decode

/-- The family selector w[15:12] (30_encoding.md R61). -/
def opOf (w : Word) : Nibble := w.extractLsb' 12 4

/-- x = w[11:8] (30_encoding.md R61). -/
def xOf (w : Word) : Nibble := w.extractLsb' 8 4

/-- y = w[7:4] (30_encoding.md R61). -/
def yOf (w : Word) : Nibble := w.extractLsb' 4 4

/-- n = w[3:0] (30_encoding.md R61). -/
def nOf (w : Word) : Nibble := w.extractLsb' 0 4

/-- kk = w[7:0] (30_encoding.md R61). -/
def kkOf (w : Word) : Byte := w.extractLsb' 0 8

/-- nnn = w[11:0] (30_encoding.md R61). -/
def nnnOf (w : Word) : Addr12 := w.extractLsb' 0 12

/-- The word of two bytes, the first (at the lower address) in bits 15..8 (20_memory.md R44). -/
def wordOfBytes (hi lo : Byte) : Word := hi ++ lo

/-- Bits 15..8 of a word, the byte at the lower address (20_memory.md R44). -/
def highByte (w : Word) : Byte := w.extractLsb' 8 8

/-- Bits 7..0 of a word, the byte at the higher address (20_memory.md R44). -/
def lowByte (w : Word) : Byte := w.extractLsb' 0 8

/-- Family 8, on the low nibble (30_encoding.md R66). -/
def family8 (x y n : Nibble) : Except Reject Instr :=
  match n.toNat with
  | 0x0 => .ok (.ldReg x y)
  | 0x1 => .ok (.orReg x y)
  | 0x2 => .ok (.andReg x y)
  | 0x3 => .ok (.xorReg x y)
  | 0x4 => .ok (.addReg x y)
  | 0x5 => .ok (.subReg x y)
  | 0x6 => .ok (.shr x y)
  | 0x7 => .ok (.subnReg x y)
  | 0xE => .ok (.shl x y)
  | _ => .error .family8

/-- Family E, on the low byte (30_encoding.md R67). -/
def familyE (x : Nibble) (kk : Byte) : Except Reject Instr :=
  match kk.toNat with
  | 0x9E => .ok (.skp x)
  | 0xA1 => .ok (.sknp x)
  | _ => .error .familyE

/-- Family F, on the low byte (30_encoding.md R68). -/
def familyF (x : Nibble) (kk : Byte) : Except Reject Instr :=
  match kk.toNat with
  | 0x07 => .ok (.ldVxDt x)
  | 0x0A => .ok (.ldVxK x)
  | 0x15 => .ok (.ldDtVx x)
  | 0x18 => .ok (.ldStVx x)
  | 0x1E => .ok (.addI x)
  | 0x29 => .ok (.ldF x)
  | 0x33 => .ok (.ldB x)
  | 0x55 => .ok (.storeRegs x)
  | 0x65 => .ok (.loadRegs x)
  | _ => .error .familyF

/-- The sixteen families (30_encoding.md R64), the two literals of family 0 being matched before. -/
def byFamily (w : Word) : Except Reject Instr :=
  match (opOf w).toNat with
  | 0x0 => .error .family0
  | 0x1 => .ok (.jp (nnnOf w))
  | 0x2 => .ok (.call (nnnOf w))
  | 0x3 => .ok (.seImm (xOf w) (kkOf w))
  | 0x4 => .ok (.sneImm (xOf w) (kkOf w))
  | 0x5 => .ok (.seReg (xOf w) (yOf w) (nOf w))
  | 0x6 => .ok (.ldImm (xOf w) (kkOf w))
  | 0x7 => .ok (.addImm (xOf w) (kkOf w))
  | 0x8 => family8 (xOf w) (yOf w) (nOf w)
  | 0x9 => .ok (.sneReg (xOf w) (yOf w) (nOf w))
  | 0xA => .ok (.ldI (nnnOf w))
  | 0xB => .ok (.jpV0 (nnnOf w))
  | 0xC => .ok (.rnd (xOf w) (kkOf w))
  | 0xD => .ok (.drw (xOf w) (yOf w) (nOf w))
  | 0xE => familyE (xOf w) (kkOf w)
  | _ => familyF (xOf w) (kkOf w)

end Decode

/-- `Decode(w)`, in the order of 30_encoding.md R63: the two full-word literals first, then the family. -/
def decodeWord (w : Word) : Except Reject Instr :=
  if w = 0x00E0#16 then .ok .cls
  else if w = 0x00EE#16 then .ok .ret
  else Decode.byFamily w

/-- The instruction at the head of a list of bytes, with the bytes that follow it. -/
def decodeBytes : List Byte → Except Reject (Instr × List Byte)
  | hi :: lo :: rest =>
    match decodeWord (Decode.wordOfBytes hi lo) with
    | .ok i => .ok (i, rest)
    | .error r => .error r
  | _ => .error .truncated

/-- Format NNN, `oooo nnnn nnnn nnnn` (30_encoding.md R62). -/
def Decode.formatNNN (o : Nibble) (nnn : Addr12) : Word := o ++ nnn

/-- Formats XKK and XSS, `oooo xxxx kkkk kkkk` (30_encoding.md R62). -/
def Decode.formatXKK (o x : Nibble) (kk : Byte) : Word := o ++ x ++ kk

/-- Formats XY and XYN, `oooo xxxx yyyy nnnn` (30_encoding.md R62). -/
def Decode.formatXYN (o x y n : Nibble) : Word := o ++ x ++ y ++ n

/-- The word of an instruction, field by field from the encoding column of spec/opcode_table.json
(30_encoding.md R62). -/
def encode : Instr → Word
  | .cls => 0x00E0#16
  | .ret => 0x00EE#16
  | .jp nnn => Decode.formatNNN 0x1#4 nnn
  | .call nnn => Decode.formatNNN 0x2#4 nnn
  | .seImm x kk => Decode.formatXKK 0x3#4 x kk
  | .sneImm x kk => Decode.formatXKK 0x4#4 x kk
  | .seReg x y ign => Decode.formatXYN 0x5#4 x y ign
  | .ldImm x kk => Decode.formatXKK 0x6#4 x kk
  | .addImm x kk => Decode.formatXKK 0x7#4 x kk
  | .ldReg x y => Decode.formatXYN 0x8#4 x y 0x0#4
  | .orReg x y => Decode.formatXYN 0x8#4 x y 0x1#4
  | .andReg x y => Decode.formatXYN 0x8#4 x y 0x2#4
  | .xorReg x y => Decode.formatXYN 0x8#4 x y 0x3#4
  | .addReg x y => Decode.formatXYN 0x8#4 x y 0x4#4
  | .subReg x y => Decode.formatXYN 0x8#4 x y 0x5#4
  | .shr x ign => Decode.formatXYN 0x8#4 x ign 0x6#4
  | .subnReg x y => Decode.formatXYN 0x8#4 x y 0x7#4
  | .shl x ign => Decode.formatXYN 0x8#4 x ign 0xE#4
  | .sneReg x y ign => Decode.formatXYN 0x9#4 x y ign
  | .ldI nnn => Decode.formatNNN 0xA#4 nnn
  | .jpV0 nnn => Decode.formatNNN 0xB#4 nnn
  | .rnd x kk => Decode.formatXKK 0xC#4 x kk
  | .drw x y n => Decode.formatXYN 0xD#4 x y n
  | .skp x => Decode.formatXKK 0xE#4 x 0x9E#8
  | .sknp x => Decode.formatXKK 0xE#4 x 0xA1#8
  | .ldVxDt x => Decode.formatXKK 0xF#4 x 0x07#8
  | .ldVxK x => Decode.formatXKK 0xF#4 x 0x0A#8
  | .ldDtVx x => Decode.formatXKK 0xF#4 x 0x15#8
  | .ldStVx x => Decode.formatXKK 0xF#4 x 0x18#8
  | .addI x => Decode.formatXKK 0xF#4 x 0x1E#8
  | .ldF x => Decode.formatXKK 0xF#4 x 0x29#8
  | .ldB x => Decode.formatXKK 0xF#4 x 0x33#8
  | .storeRegs x => Decode.formatXKK 0xF#4 x 0x55#8
  | .loadRegs x => Decode.formatXKK 0xF#4 x 0x65#8

/-- The word of an opcode-table row's number: its low nbits bits, every bit above them 0. -/
def Decode.tableWord (nbits w : Nat) : Word := BitVec.ofNat 16 (w % 2 ^ nbits)

/-- What the decoder reads from an instruction whose bits are w, numbered as spec/opcode_table.json numbers
them: the word is laid out high byte first (20_memory.md R44) and given to `decodeBytes`. -/
def decodeTableWord (nbits w : Nat) : Option Instr :=
  let word := Decode.tableWord nbits w
  match decodeBytes [Decode.highByte word, Decode.lowByte word] with
  | .ok (i, _) => some i
  | .error _ => none

end Sys2Proof
end

