-- ==== Sys2Proof/Config.lean ====
section
/-! DEFINITION. What is fixed for this hardware (00_scope.md R4), and the values the spec leaves open: a
constant without a body, of which nothing can be proved but what holds for every value. -/

namespace Sys2Proof

/-- What the host does to ST while it sounds (60_exceptions.md R196). -/
inductive SoundTimerMode where
  /-- The host's only write to ST is the decrement of the tick. -/
  | countdown
  /-- In addition the host may zero ST between two steps. -/
  | zeroAfterPulse
deriving DecidableEq, Repr, Inhabited

/-- A host key identifier, "an opaque, comparable" value (60_exceptions.md R198).
DESIGN CHOICE: natural numbers, since only equality is ever asked of them (log 7; safe). -/
abbrev HostKeyId := Nat

namespace Config

/-- MEM_SIZE: addresses 0x000 to 0xFFF (00_scope.md R4). -/
abbrev memSize : Nat := 4096

/-- STACK_DEPTH (00_scope.md R4). -/
abbrev stackDepth : Nat := 16

/-- PROGRAM_BASE, where an image is loaded (00_scope.md R4). -/
abbrev programBase : Nat := 0x200

/-- GLYPH_HEIGHT, the bytes of one glyph (00_scope.md R4; 42_index_memory.md R122). -/
abbrev glyphHeight : Nat := 5

/-- `draw8()`, the n-th byte drawn: a FREE VALUE, "under no law" (60_exceptions.md R201; 92_eei_decisions.md
D14; log 2, safe). -/
opaque draw8 : Nat → Byte

/-- SOUND_TIMER_MODE, left open by the spec (60_exceptions.md R196; 92_eei_decisions.md D13; log 8, safe). -/
opaque soundTimerMode : SoundTimerMode

end Config

end Sys2Proof
end

