-- ==== Sys2Proof/Machine/ResetImage.lean ====
section
/-! DEFINITION. What the reset event puts into memory and the pc (10_state.md R30, R31; 70_reset_and_hazards.md
R220, R221). -/

namespace Sys2Proof.Machine

/-- RESET_PC (00_scope.md R4; 10_state.md R30; the spec's decision D3, log 1). -/
abbrev resetPc : Word := 0x0200#16

/-- FONT_TABLE, glyphs 0 to 7 (10_state.md R31). -/
def fontLow : List Byte :=
  [0xF0, 0x90, 0x90, 0x90, 0xF0,
   0x20, 0x60, 0x20, 0x20, 0x70,
   0xF0, 0x10, 0xF0, 0x80, 0xF0,
   0xF0, 0x10, 0xF0, 0x10, 0xF0,
   0x90, 0x90, 0xF0, 0x10, 0x10,
   0xF0, 0x80, 0xF0, 0x10, 0xF0,
   0xF0, 0x80, 0xF0, 0x90, 0xF0,
   0xF0, 0x10, 0x20, 0x40, 0x40]

/-- FONT_TABLE, glyphs 8 to F (10_state.md R31). -/
def fontHigh : List Byte :=
  [0xF0, 0x90, 0xF0, 0x90, 0xF0,
   0xF0, 0x90, 0xF0, 0x10, 0xF0,
   0xF0, 0x90, 0xF0, 0x90, 0x90,
   0xE0, 0x90, 0xE0, 0x90, 0xE0,
   0xF0, 0x80, 0x80, 0x80, 0xF0,
   0xE0, 0x90, 0x90, 0x90, 0xE0,
   0xF0, 0x80, 0xF0, 0x80, 0xF0,
   0xF0, 0x80, 0xF0, 0x80, 0x80]

/-- FONT_TABLE: the spec's default, 16 glyphs of 5 bytes (10_state.md R31; 92_eei_decisions.md D4; log 1). -/
def fontTable : List Byte := fontLow ++ fontHigh

/-- What an address of the memory space holds right after reset: the font image at 0x000..0x04F, 0x00 above
(10_state.md R30; 70_reset_and_hazards.md R221). It is what an address the memory does not list reads as. -/
def resetByte (a : Nat) : Byte := fontTable.getD a 0x00#8

end Sys2Proof.Machine
end

