-- ==== Sys2Proof/Machine/State.lean ====
section
/-! DEFINITION. The state of the machine as plain data (10_state.md R10 to R31), the reasons a step can stop,
and the state right after reset. -/

namespace Sys2Proof.Machine

/-- The error kinds (60_exceptions.md R180). -/
inductive ErrorKind where
  | outOfBounds
  | stackOverflow
  | stackUnderflow
  | unsupportedOpcode
  | romTooLarge
deriving DecidableEq, Repr

/-- RUN, the run state of the core (10_state.md R24; 60_exceptions.md R193). -/
inductive RunState where
  | running
  | waitKey
  | faulted
deriving DecidableEq, Repr

/-- FAULT, the record written when the core enters FAULTED (10_state.md R26; 60_exceptions.md R187). -/
structure FaultRecord where
  /-- Which kind; its number is `ErrorKind.code` (60_exceptions.md R181). -/
  kind : ErrorKind
  /-- The instruction word, absent for a fetch fault. -/
  word : Option Word
  /-- The address the instruction was fetched from, or the pc of the failed fetch (the spec's `at`). -/
  addr : Word
  /-- The offending memory address or key index, absent for the stack kinds. -/
  info : Option Nat
deriving DecidableEq, Repr

/-- One diagnostic of an unsupported word: the word and the address it was fetched from (60_exceptions.md
R202; log 4). -/
structure Diag where
  word : Word
  addr : Word
deriving DecidableEq, Repr

/-- KEYMAP: slot i holds the host identifier of virtual key i (60_exceptions.md R198). -/
abbrev KeyMap := Vector HostKeyId 16

/-- What the host can do to the machine, each event taken as a whole between two steps (60_exceptions.md
R204; 70_reset_and_hazards.md R222, R232; log 3). -/
inductive HostEvent where
  /-- Step: one step of the core (70_reset_and_hazards.md R232). -/
  | step
  /-- Tick: the two timers (60_exceptions.md R194). -/
  | tick
  /-- KeyDown of a virtual key code (60_exceptions.md R197, R199). -/
  | keyDown (k : Nat)
  /-- KeyUp of a virtual key code (60_exceptions.md R197). -/
  | keyUp (k : Nat)
  /-- Reset (70_reset_and_hazards.md R220). -/
  | reset
  /-- Program load (70_reset_and_hazards.md R224). -/
  | load (image : List Byte)
  /-- set_mapping (60_exceptions.md R198). -/
  | setMapping (table : KeyMap)
  /-- A key-down of a host key, resolved through KEYMAP (60_exceptions.md R198). -/
  | hostKeyDown (h : HostKeyId)
  /-- A key-up of a host key, resolved through KEYMAP (60_exceptions.md R198). -/
  | hostKeyUp (h : HostKeyId)
  /-- The host zeroes ST after a pulse (60_exceptions.md R196). -/
  | soundPulse
deriving DecidableEq, Repr

/-- FB: rows downward from the top, each of 64 columns from the left (10_state.md R22). -/
abbrev Display := Vector (Vector Bool 64) 32

/-- MEM as a list of (address, byte), addresses strictly rising, no entry equal to `resetByte` of its address;
an address the list does not name reads as `resetByte` (10_state.md R21; `Memory.wf`). -/
abbrev Memory := List Host.Cell

/-- The state of the machine (10_state.md R10 to R26). The last six fields are not the block's: KEYMAP is
the host adaptor's, the five others are the model's own. -/
structure State where
  /-- V0..VF (10_state.md R10). -/
  v : Vector Byte 16
  /-- I, the address register (10_state.md R12). -/
  iReg : Word
  /-- DT, the delay timer (10_state.md R13). -/
  dt : Byte
  /-- ST, the sound timer (10_state.md R14). -/
  st : Byte
  /-- The program counter (10_state.md R15). -/
  pc : Word
  /-- SP, the number of return addresses on the stack (10_state.md R17). -/
  sp : Byte
  /-- STACK[0..15] (10_state.md R18). -/
  stack : Vector Word 16
  /-- MEM[0..4095] (10_state.md R21). -/
  mem : Memory
  /-- FB (10_state.md R22). -/
  fb : Display
  /-- KEY[0..15] (10_state.md R23). -/
  key : Vector Bool 16
  /-- RUN (10_state.md R24). -/
  run : RunState
  /-- WAIT_X (10_state.md R25). -/
  waitX : Nibble
  /-- FAULT (10_state.md R26). -/
  fault : Option FaultRecord
  /-- KEYMAP, once the host has installed it (60_exceptions.md R198; log 7). -/
  keyMap : Option KeyMap
  /-- MODEL'S OWN: how many random bytes have been drawn; the next is `Config.draw8 draws` (log 2). -/
  draws : Nat
  /-- MODEL'S OWN: the diagnostics emitted so far, oldest first (60_exceptions.md R202; log 4). -/
  diags : List Diag
  /-- MODEL'S OWN: the key map has been installed since the last reset (70_reset_and_hazards.md R222; log 6). -/
  mapped : Bool
  /-- MODEL'S OWN: since the last reset the host has begun to deliver Step, Tick and key events, so the start-up is
  over (70_reset_and_hazards.md R222; 20_memory.md R56; log 6). -/
  started : Bool
  /-- MODEL'S OWN: the host events still to come, the next one first (60_exceptions.md R204; log 3). -/
  schedule : List HostEvent
deriving DecidableEq, Repr

/-- Where the machine stops. A fault that the spec describes is no stop: it is taken (60_exceptions.md R187). -/
inductive Fault where
  /-- Raised by CALL and RET when SP is in 17..255: the spec's Push and Pop name a stack slot that does not
  exist, and no run from reset reaches such a state (10_state.md R17, R28; log 5). Safe: the model stops where
  the spec says nothing. -/
  | stackPointerOutOfRange
deriving DecidableEq, Repr

/-- Why a step is refused. No instruction that has a meaning is ever refused. -/
inductive Refusal where
  /-- An arm of `exec` without a meaning answers so; none does. Safe. -/
  | notModelled (mnemonic : String)
  /-- Raised by the host's load of an image longer than 3584 bytes: RomTooLarge, "rejected before any memory
  mutation occurs" (70_reset_and_hazards.md R224; 60_exceptions.md R186). Safe: such a launch never runs. -/
  | romTooLarge
  /-- Raised by a load event once the start-up is over: the spec gives the host no such write (20_memory.md R56;
  70_reset_and_hazards.md R222; log 6). Safe. -/
  | loadAfterStart
  /-- Raised by a set_mapping event once the start-up is over: the host installs its key map before
  (70_reset_and_hazards.md R222; log 6). Safe. -/
  | mappingAfterStart
  /-- Raised by a second set_mapping event of one start-up: the host installs its key map once
  (70_reset_and_hazards.md R222; 60_exceptions.md R198; log 6). Safe. -/
  | mappingInstalledTwice
  /-- Raised by the host's zeroing of ST where SOUND_TIMER_MODE is countdown: not allowed there
  (60_exceptions.md R196; log 8). Safe. -/
  | soundPulseInCountdownMode
deriving DecidableEq, Repr

/-- The machine right after reset (10_state.md R30; 70_reset_and_hazards.md R220). -/
def State.reset : State where
  v := Vector.replicate 16 0x00#8
  iReg := 0x0000#16
  dt := 0x00#8
  st := 0x00#8
  pc := resetPc
  sp := 0x00#8
  stack := Vector.replicate 16 0x0000#16
  mem := []
  fb := Vector.replicate 32 (Vector.replicate 64 false)
  key := Vector.replicate 16 false
  run := .running
  waitX := 0x0#4
  fault := none
  keyMap := none
  draws := 0
  diags := []
  mapped := false
  started := false
  schedule := []

end Sys2Proof.Machine
end

