-- ==== Sys2Proof/Machine/Ops.lean ====
section
/-! DEFINITION. The named operations over registers, stack, memory and keys, and taking a fault, as ONE shared
operation (10_state.md, 20_memory.md, 60_exceptions.md R187). -/

namespace Sys2Proof.Machine

/-! ## Registers and pixels -/

/-- VF is general register 15 (10_state.md R11). -/
abbrev vf : Nibble := 0xF#4

/-- `V[x]` (10_state.md R10). -/
def State.getV (s : State) (x : Nibble) : Byte := s.v[x.toNat]'x.isLt

/-- `V[x] <- b` (10_state.md R10). -/
def State.setV (s : State) (x : Nibble) (b : Byte) : State := { s with v := s.v.set x.toNat b x.isLt }

/-- `pc <- t` (00_scope.md R7). -/
def State.setPc (s : State) (t : Word) : State := { s with pc := t }

/-- `FB[px, py]` (10_state.md R22). -/
def pixel (fb : Display) (px : Fin 64) (py : Fin 32) : Bool := fb[py][px]

/-- `FB[px, py] <- 1 - FB[px, py]` (43_display.md R142). -/
def togglePixel (fb : Display) (px : Fin 64) (py : Fin 32) : Display :=
  fb.set py (fb[py].set px (!fb[py][px]))

/-- The display with every pixel unset (43_display.md R140). -/
def clearDisplay : Display := Vector.replicate 32 (Vector.replicate 64 false)

/-! ## Memory -/

/-- The byte at a, listed or as reset left it. -/
def Memory.read : Memory → Nat → Byte
  | [], a => resetByte a
  | (k, c) :: m, a => if k = a then c else Memory.read m a

/-- The entry that makes address a read b, in front of m; none where m alone makes it read so. -/
def Memory.put (a : Nat) (b : Byte) (m : Memory) : Memory :=
  if b = resetByte a then m else (a, b) :: m

/-- The memory in which address a holds b, in canonical form again. -/
def Memory.write : Memory → Nat → Byte → Memory
  | [], a, b => Memory.put a b []
  | (k, c) :: m, a, b =>
    if a < k then Memory.put a b ((k, c) :: m)
    else if a = k then Memory.put a b m
    else (k, c) :: Memory.write m a b

/-- The canonical form from address lo on: addresses rise strictly and are inside the memory, and no entry is
equal to what an unlisted address reads as. -/
def Memory.wfFrom : Nat → Memory → Bool
  | _, [] => true
  | lo, (k, c) :: m => decide (lo ≤ k) && decide (k < Config.memSize) && (c != resetByte k) && Memory.wfFrom (k + 1) m

/-- The canonical form of a memory. -/
def Memory.wf (m : Memory) : Bool := Memory.wfFrom 0 m

/-! ## What a part of an instruction answers -/

/-- The answer of a part of an instruction: it goes on with a value, it raises an error kind with the state
that what came before has left (60_exceptions.md R188), or it meets a case the spec gives nothing for. -/
inductive Result (α : Type) where
  | ok (value : α) (s : State)
  | raise (kind : ErrorKind) (info : Option Nat) (s : State)
  | stuck (f : Fault)
deriving DecidableEq, Repr

/-- One part after another: "nothing after the raise is done" (00_scope.md R7). -/
def Result.bind {α β : Type} (r : Result α) (k : α → State → Result β) : Result β :=
  match r with
  | .ok a s => k a s
  | .raise kind info s => .raise kind info s
  | .stuck f => .stuck f

/-- `for k in ks in this order: f k` (20_memory.md R49). -/
def forEach (f : Nat → State → Result Unit) : List Nat → State → Result Unit
  | [], s => .ok () s
  | k :: ks, s => (f k s).bind fun _ s' => forEach f ks s'

/-! ## Memory access with its bounds check -/

/-- `MemRead(a, 1)` (20_memory.md R41). -/
def readByte (a : Nat) (s : State) : Result Byte :=
  if a < Config.memSize then .ok (s.mem.read a) s else .raise .outOfBounds (some a) s

/-- `MemWrite(a, 1, b)` (20_memory.md R42). -/
def writeByte (a : Nat) (b : Byte) (s : State) : Result Unit :=
  if a < Config.memSize then .ok () { s with mem := s.mem.write a b } else .raise .outOfBounds (some a) s

/-- The bytes at the addresses `base + k` for the k of a list, read in order (20_memory.md R49). -/
def readBytes (base : Nat) : List Nat → State → Result (List Byte)
  | [], s => .ok [] s
  | k :: ks, s =>
    (readByte (base + k) s).bind fun b s' =>
      (readBytes base ks s').bind fun bs s'' => .ok (b :: bs) s''

/-! ## Call stack -/

/-- `Push(t)` (10_state.md R19). SP above 16 is no legal value and names no slot (R17; log 5). -/
def push (t : Word) (s : State) : Result Unit :=
  if s.sp.toNat = Config.stackDepth then .raise .stackOverflow none s
  else if h : s.sp.toNat < Config.stackDepth then
    .ok () { s with stack := s.stack.set s.sp.toNat t h, sp := s.sp + 1#8 }
  else .stuck .stackPointerOutOfRange

/-- `Pop()` (10_state.md R20). SP above 16 is no legal value and names no slot (R17; log 5). -/
def pop (s : State) : Result Word :=
  if s.sp.toNat = 0 then .raise .stackUnderflow none s
  else if h : s.sp.toNat - 1 < Config.stackDepth then
    .ok (s.stack[s.sp.toNat - 1]'h) { s with sp := s.sp - 1#8 }
  else .stuck .stackPointerOutOfRange

/-! ## Keys -/

/-- `IsPressed(k)` (44_keypad_timers.md R163). -/
def isPressed (k : Byte) (s : State) : Result Bool :=
  if h : k.toNat < 16 then .ok (s.key[k.toNat]'h) s else .raise .outOfBounds (some k.toNat) s

/-- `KEY[k] <- down`, for a code below 16; a code of 16 or more changes nothing (60_exceptions.md R197). -/
def State.setKey (s : State) (k : Nat) (down : Bool) : State :=
  if h : k < 16 then { s with key := s.key.set k down h } else s

/-! ## The end of the start-up -/

/-- The host delivers a Step, a Tick or a key event: the start-up is over (70_reset_and_hazards.md R222; log 6). -/
def State.start (s : State) : State := { s with started := true }

/-! ## Skips -/

/-- A skip is `pc <- (pc + 2) mod 65536`; one that is not taken changes nothing (40_control_transfer.md R88). -/
def State.skipIf (s : State) (c : Bool) : State := if c then s.setPc (s.pc + 2#16) else s

/-! ## Taking a fault -/

/-- The cause codes (60_exceptions.md R181). -/
def ErrorKind.code : ErrorKind → Nat
  | .outOfBounds => 1
  | .stackOverflow => 2
  | .stackUnderflow => 3
  | .unsupportedOpcode => 4
  | .romTooLarge => 5

/-- `TakeFault` (60_exceptions.md R187): FAULT is written and RUN becomes FAULTED; nothing else happens. -/
def State.takeFault (s : State) (kind : ErrorKind) (word : Option Word) (addr : Word) (info : Option Nat) : State :=
  { s with fault := some { kind := kind, word := word, addr := addr, info := info }, run := .faulted }

/-- The address the instruction in execution was fetched from: the fetch has advanced the pc by 2
(10_state.md R15). -/
def State.instrAddr (s : State) : Word := s.pc - 2#16

/-- The end of an instruction with the word w that began in state s: where it raised, the fault is taken in the
state the parts before the raise have left (60_exceptions.md R187, R188). -/
def finish (w : Word) (s : State) (r : Result Unit) : Host.Outcome State Fault Refusal :=
  match r with
  | .ok _ s' => .next s'
  | .raise kind info s' => .next (s'.takeFault kind (some w) s.instrAddr info)
  | .stuck f => .fault f

end Sys2Proof.Machine
end

