-- ==== Sys2Proof/Machine/Operands.lean ====
section
/-! DEFINITION. The operand forms: registers named by a field, register lists, immediates, and the one
addressing mode (30_encoding.md R72; 42_index_memory.md R126). -/

namespace Sys2Proof.Machine

/-- The effective address `I + k`: a natural number, neither masked nor wrapped (20_memory.md R43;
42_index_memory.md R126). -/
def State.ea (s : State) (k : Nat) : Nat := s.iReg.toNat + k

/-- The register of a list's index k (42_index_memory.md R124, R125). -/
def regOf (k : Nat) : Nibble := BitVec.ofNat 4 k

/-- The indices of `V0..Vx` inclusive, in ascending order (42_index_memory.md R124, R125). -/
def regsUpTo (x : Nibble) : List Nat := List.range (x.toNat + 1)

/-- The offsets 0..n-1 of a sprite's rows (43_display.md R141). -/
def rowOffsets (n : Nibble) : List Nat := List.range n.toNat

/-- A target `nnn`, zero-extended (40_control_transfer.md R81; 42_index_memory.md R120). -/
def target (nnn : Addr12) : Word := zext16 nnn

/-- `nnn + V0`, as a 16-bit value (40_control_transfer.md R87). -/
def State.indexedTarget (s : State) (nnn : Addr12) : Word := BitVec.ofNat 16 (nnn.toNat + (s.getV 0#4).toNat)

/-- Hundreds of an 8-bit value (42_index_memory.md R123). -/
def hundreds (b : Byte) : Byte := BitVec.ofNat 8 (b.toNat / 100)

/-- Tens of an 8-bit value (42_index_memory.md R123). -/
def tens (b : Byte) : Byte := BitVec.ofNat 8 (b.toNat / 10 % 10)

/-- Units of an 8-bit value (42_index_memory.md R123). -/
def units (b : Byte) : Byte := BitVec.ofNat 8 (b.toNat % 10)

end Sys2Proof.Machine
end

