-- ==== Sys2Proof/Machine/ControlTransfer.lean ====
section
/-! DEFINITION. Control transfer (40_control_transfer.md). The pc has been advanced by the fetch: it is the
address of the instruction plus 2 (10_state.md R15). -/

namespace Sys2Proof.Machine

/-- RET (40_control_transfer.md R80). -/
def execRet (s : State) : Host.Outcome State Fault Refusal :=
  finish (encode .ret) s ((pop s).bind fun t s' => .ok () (s'.setPc t))

/-- JP nnn (40_control_transfer.md R81). -/
def execJp (nnn : Addr12) (s : State) : Host.Outcome State Fault Refusal :=
  .next (s.setPc (target nnn))

/-- CALL nnn (40_control_transfer.md R82). -/
def execCall (nnn : Addr12) (s : State) : Host.Outcome State Fault Refusal :=
  finish (encode (.call nnn)) s ((push s.pc s).bind fun _ s' => .ok () (s'.setPc (target nnn)))

/-- SE Vx,kk (40_control_transfer.md R83). -/
def execSeImm (x : Nibble) (kk : Byte) (s : State) : Host.Outcome State Fault Refusal :=
  .next (s.skipIf (s.getV x == kk))

/-- SNE Vx,kk (40_control_transfer.md R84). -/
def execSneImm (x : Nibble) (kk : Byte) (s : State) : Host.Outcome State Fault Refusal :=
  .next (s.skipIf (s.getV x != kk))

/-- SE Vx,Vy; the low nibble is ignored (40_control_transfer.md R85; 30_encoding.md R69). -/
def execSeReg (x y _ign : Nibble) (s : State) : Host.Outcome State Fault Refusal :=
  .next (s.skipIf (s.getV x == s.getV y))

/-- SNE Vx,Vy; the low nibble is ignored (40_control_transfer.md R86; 30_encoding.md R69). -/
def execSneReg (x y _ign : Nibble) (s : State) : Host.Outcome State Fault Refusal :=
  .next (s.skipIf (s.getV x != s.getV y))

/-- JP V0,nnn (40_control_transfer.md R87). -/
def execJpV0 (nnn : Addr12) (s : State) : Host.Outcome State Fault Refusal :=
  .next (s.setPc (s.indexedTarget nnn))

end Sys2Proof.Machine
end

