-- ==== Sys2Proof/Machine/Blit.lean ====
section
/-! DEFINITION. The sprite XOR-blit engine, pixel by pixel in the order of 43_display.md R142. -/

namespace Sys2Proof.Machine

/-- The display column of sprite column c at x0 (43_display.md R142, R145). -/
def spriteColumn (x0 c : Nat) : Fin 64 := Fin.ofNat 64 (x0 + c)

/-- The display row of sprite row r at y0 (43_display.md R142, R145). -/
def spriteRow (y0 r : Nat) : Fin 32 := Fin.ofNat 32 (y0 + r)

/-- Column c of a sprite row: bit 7 is the leftmost (43_display.md R143). -/
def spriteBit (row : Byte) (c : Nat) : Bool := row.getLsbD (7 - c)

/-- A display and the collision seen so far. -/
abbrev Blit := Display × Bool

/-- One sprite bit: a 1 notes a collision where the pixel is set, then toggles it; a 0 leaves it alone
(43_display.md R142). -/
def drawBit (x0 y0 r : Nat) (row : Byte) (acc : Blit) (c : Nat) : Blit :=
  if spriteBit row c then
    (togglePixel acc.1 (spriteColumn x0 c) (spriteRow y0 r),
      acc.2 || pixel acc.1 (spriteColumn x0 c) (spriteRow y0 r))
  else acc

/-- The eight bits of sprite row r, from the left (43_display.md R142). -/
def drawRow (x0 y0 r : Nat) (row : Byte) (acc : Blit) : Blit :=
  (List.range 8).foldl (drawBit x0 y0 r row) acc

/-- The rows from number r on, downward (43_display.md R142). -/
def drawRows (x0 y0 : Nat) : Nat → List Byte → Blit → Blit
  | _, [], acc => acc
  | r, row :: rows, acc => drawRows x0 y0 (r + 1) rows (drawRow x0 y0 r row acc)

/-- `DrawSprite(x0, y0, rows)`: the new display and the collision bit (43_display.md R142, R144). -/
def drawSprite (x0 y0 : Byte) (rows : List Byte) (fb : Display) : Blit :=
  drawRows x0.toNat y0.toNat 0 rows (fb, false)

end Sys2Proof.Machine
end

