-- ==== Sys2Proof/Machine/Flags.lean ====
section
/-! DEFINITION. Every flag computation, and the arithmetic beside it: operands as natural numbers, the exact
result, then the narrowing (41_load_alu.md R108, R109, R119; 10_state.md R32). -/

namespace Sys2Proof.Machine

/-- A condition as a register value: true is 1, false is 0 (10_state.md R32; log 13). -/
def flagByte (c : Bool) : Byte := if c then 0x01#8 else 0x00#8

/-- Keeping the low 8 bits (41_load_alu.md R108). -/
def low8 (n : Nat) : Byte := BitVec.ofNat 8 n

/-- The sum modulo 256 (41_load_alu.md R101, R106). -/
def sum8 (a b : Byte) : Byte := low8 (a.toNat + b.toNat)

/-- The carry of a sum: it is greater than 255 (41_load_alu.md R106). -/
def carryFlag (a b : Byte) : Bool := decide (a.toNat + b.toNat > 255)

/-- The difference modulo 256 (41_load_alu.md R107, R112). -/
def diff8 (a b : Byte) : Byte := low8 (a.toNat + 256 - b.toNat)

/-- a > b, strictly (41_load_alu.md R107, R109). -/
def greaterFlag (a b : Byte) : Bool := decide (a.toNat > b.toNat)

/-- The logical shift right by one (41_load_alu.md R111). -/
def half8 (a : Byte) : Byte := low8 (a.toNat / 2)

/-- The bit a right shift moves out, the previous bit 0 (41_load_alu.md R111). -/
def lowBitFlag (a : Byte) : Bool := decide (a.toNat % 2 = 1)

/-- The shift left by one (41_load_alu.md R113). -/
def double8 (a : Byte) : Byte := low8 (a.toNat * 2)

/-- The bit a left shift moves out, the previous bit 7 (41_load_alu.md R113). -/
def highBitFlag (a : Byte) : Bool := decide (a.toNat / 128 = 1)

/-- VF is written, then Vx, so that with x = 15 the result stays (41_load_alu.md R119; log 9). -/
def State.setFlagThenV (s : State) (flag : Bool) (x : Nibble) (result : Byte) : State :=
  (s.setV vf (flagByte flag)).setV x result

end Sys2Proof.Machine
end

