-- ==== Sys2Proof/Machine/DisplayInstrs.lean ====
section
/-! DEFINITION. The display instructions (43_display.md). -/

namespace Sys2Proof.Machine

/-- CLS: every pixel unset, VF untouched (43_display.md R140). -/
def execCls (s : State) : Host.Outcome State Fault Refusal :=
  .next { s with fb := clearDisplay }

/-- The blit of DRW once its rows are read: the display, then VF <- collision (43_display.md R141). -/
def blitRows (x0 y0 : Byte) (rows : List Byte) (s : State) : State :=
  { s with fb := (drawSprite x0 y0 rows s.fb).1 }.setV vf (flagByte (drawSprite x0 y0 rows s.fb).2)

/-- DRW Vx,Vy,n: all n bytes are read before a pixel changes (43_display.md R141, R146). -/
def execDrw (x y n : Nibble) (s : State) : Host.Outcome State Fault Refusal :=
  finish (encode (.drw x y n)) s <|
    (readBytes (s.ea 0) (rowOffsets n) s).bind fun rows s' => .ok () (blitRows (s.getV x) (s.getV y) rows s')

end Sys2Proof.Machine
end

