-- ==== Sys2Proof/Machine/IndexMemory.lean ====
section
/-! DEFINITION. The address register, and the instructions that store to memory or load from it
(42_index_memory.md). None of them that uses I as a base changes it (R127). -/

namespace Sys2Proof.Machine

/-- LD I,nnn (42_index_memory.md R120). -/
def execLdI (nnn : Addr12) (s : State) : Host.Outcome State Fault Refusal :=
  .next { s with iReg := target nnn }

/-- ADD I,Vx: modulo 65536, no flag (42_index_memory.md R121). -/
def execAddI (x : Nibble) (s : State) : Host.Outcome State Fault Refusal :=
  .next { s with iReg := BitVec.ofNat 16 (s.iReg.toNat + (s.getV x).toNat) }

/-- LD F,Vx: the whole byte times the glyph height (42_index_memory.md R122). -/
def execLdF (x : Nibble) (s : State) : Host.Outcome State Fault Refusal :=
  .next { s with iReg := BitVec.ofNat 16 ((s.getV x).toNat * Config.glyphHeight) }

/-- LD B,Vx: hundreds, tens and units at I, I+1, I+2 (42_index_memory.md R123). -/
def execLdB (x : Nibble) (s : State) : Host.Outcome State Fault Refusal :=
  finish (encode (.ldB x)) s <|
    (writeByte (s.ea 0) (hundreds (s.getV x)) s).bind fun _ s1 =>
      (writeByte (s.ea 1) (tens (s.getV x)) s1).bind fun _ s2 =>
        writeByte (s.ea 2) (units (s.getV x)) s2

/-- One register of the block store: `MemWrite(I + k, 1, V[k])` (42_index_memory.md R124). -/
def storeReg (k : Nat) (s : State) : Result Unit := writeByte (s.ea k) (s.getV (regOf k)) s

/-- LD [I],Vx (42_index_memory.md R124). -/
def execStoreRegs (x : Nibble) (s : State) : Host.Outcome State Fault Refusal :=
  finish (encode (.storeRegs x)) s (forEach storeReg (regsUpTo x) s)

/-- One register of the block load: `V[k] <- MemRead(I + k, 1)` (42_index_memory.md R125). -/
def loadReg (k : Nat) (s : State) : Result Unit :=
  (readByte (s.ea k) s).bind fun b s' => .ok () (s'.setV (regOf k) b)

/-- LD Vx,[I] (42_index_memory.md R125). -/
def execLoadRegs (x : Nibble) (s : State) : Host.Outcome State Fault Refusal :=
  finish (encode (.loadRegs x)) s (forEach loadReg (regsUpTo x) s)

end Sys2Proof.Machine
end

