-- ==== Sys2Proof/Machine/KeypadTimers.lean ====
section
/-! DEFINITION. The keypad and timer instructions (44_keypad_timers.md). -/

namespace Sys2Proof.Machine

/-- SKP Vx (44_keypad_timers.md R160, R163). -/
def execSkp (x : Nibble) (s : State) : Host.Outcome State Fault Refusal :=
  finish (encode (.skp x)) s ((isPressed (s.getV x) s).bind fun p s' => .ok () (s'.skipIf p))

/-- SKNP Vx (44_keypad_timers.md R161, R163). -/
def execSknp (x : Nibble) (s : State) : Host.Outcome State Fault Refusal :=
  finish (encode (.sknp x)) s ((isPressed (s.getV x) s).bind fun p s' => .ok () (s'.skipIf (!p)))

/-- LD Vx,DT (44_keypad_timers.md R162). -/
def execLdVxDt (x : Nibble) (s : State) : Host.Outcome State Fault Refusal :=
  .next (s.setV x s.dt)

/-- LD Vx,K, its first half: the core begins to wait (44_keypad_timers.md R164); the second half is
`State.keyDown` (60_exceptions.md R199). -/
def execLdVxK (x : Nibble) (s : State) : Host.Outcome State Fault Refusal :=
  .next { s with waitX := x, run := .waitKey }

/-- LD DT,Vx (44_keypad_timers.md R165). -/
def execLdDtVx (x : Nibble) (s : State) : Host.Outcome State Fault Refusal :=
  .next { s with dt := s.getV x }

/-- LD ST,Vx (44_keypad_timers.md R166). -/
def execLdStVx (x : Nibble) (s : State) : Host.Outcome State Fault Refusal :=
  .next { s with st := s.getV x }

end Sys2Proof.Machine
end

