-- ==== Sys2Proof/Machine/LoadAlu.lean ====
section
/-! DEFINITION. Register loads, arithmetic and logic, and the random byte (41_load_alu.md). -/

namespace Sys2Proof.Machine

/-- LD Vx,kk (41_load_alu.md R100). -/
def execLdImm (x : Nibble) (kk : Byte) (s : State) : Host.Outcome State Fault Refusal :=
  .next (s.setV x kk)

/-- ADD Vx,kk: no flag (41_load_alu.md R101). -/
def execAddImm (x : Nibble) (kk : Byte) (s : State) : Host.Outcome State Fault Refusal :=
  .next (s.setV x (sum8 (s.getV x) kk))

/-- LD Vx,Vy (41_load_alu.md R102). -/
def execLdReg (x y : Nibble) (s : State) : Host.Outcome State Fault Refusal :=
  .next (s.setV x (s.getV y))

/-- OR Vx,Vy: no flag (41_load_alu.md R103). -/
def execOrReg (x y : Nibble) (s : State) : Host.Outcome State Fault Refusal :=
  .next (s.setV x (s.getV x ||| s.getV y))

/-- AND Vx,Vy: no flag (41_load_alu.md R104). -/
def execAndReg (x y : Nibble) (s : State) : Host.Outcome State Fault Refusal :=
  .next (s.setV x (s.getV x &&& s.getV y))

/-- XOR Vx,Vy: no flag (41_load_alu.md R105). -/
def execXorReg (x y : Nibble) (s : State) : Host.Outcome State Fault Refusal :=
  .next (s.setV x (s.getV x ^^^ s.getV y))

/-- ADD Vx,Vy: VF = carry, then Vx (41_load_alu.md R106, R119). -/
def execAddReg (x y : Nibble) (s : State) : Host.Outcome State Fault Refusal :=
  .next (s.setFlagThenV (carryFlag (s.getV x) (s.getV y)) x (sum8 (s.getV x) (s.getV y)))

/-- SUB Vx,Vy: VF = 1 iff Vx > Vy, then Vx (41_load_alu.md R107, R119). -/
def execSubReg (x y : Nibble) (s : State) : Host.Outcome State Fault Refusal :=
  .next (s.setFlagThenV (greaterFlag (s.getV x) (s.getV y)) x (diff8 (s.getV x) (s.getV y)))

/-- SHR Vx; the y field is ignored (41_load_alu.md R111, R119). -/
def execShr (x _ign : Nibble) (s : State) : Host.Outcome State Fault Refusal :=
  .next (s.setFlagThenV (lowBitFlag (s.getV x)) x (half8 (s.getV x)))

/-- SUBN Vx,Vy: VF = 1 iff Vx < Vy, then Vx (41_load_alu.md R112, R119). -/
def execSubnReg (x y : Nibble) (s : State) : Host.Outcome State Fault Refusal :=
  .next (s.setFlagThenV (greaterFlag (s.getV y) (s.getV x)) x (diff8 (s.getV y) (s.getV x)))

/-- SHL Vx; the y field is ignored (41_load_alu.md R113, R119). -/
def execShl (x _ign : Nibble) (s : State) : Host.Outcome State Fault Refusal :=
  .next (s.setFlagThenV (highBitFlag (s.getV x)) x (double8 (s.getV x)))

/-- RND Vx,kk: a fresh free byte ANDed with kk (41_load_alu.md R114; 60_exceptions.md R201; log 2). -/
def execRnd (x : Nibble) (kk : Byte) (s : State) : Host.Outcome State Fault Refusal :=
  .next { s.setV x (Config.draw8 s.draws &&& kk) with draws := s.draws + 1 }

end Sys2Proof.Machine
end

