-- ==== Sys2Proof/Machine/Cycle.lean ====
section
/-! DEFINITION. One step of the core: fetch, advance, execute (70_reset_and_hazards.md R232). -/

namespace Sys2Proof.Machine

/-- `MemRead(a, 2)`, the fetch: the byte at a is the high one (20_memory.md R44). -/
def readWord (a : Nat) (s : State) : Result Word :=
  (readByte a s).bind fun hi s' =>
    (readByte (a + 1) s').bind fun lo s'' => .ok (Decode.wordOfBytes hi lo) s''

/-- `pc <- (a + 2) mod 65536`, before the execution (10_state.md R15). -/
def State.advance (s : State) : State := { s with pc := s.pc + 2#16 }

/-- `Unsupported(w)`: a diagnostic and nothing else; the pc has been advanced (30_encoding.md R71;
60_exceptions.md R202; log 4). -/
def execUnsupported (w : Word) (s : State) : Host.Outcome State Fault Refusal :=
  .next { s with diags := s.diags ++ [{ word := w, addr := s.instrAddr }] }

/-- `Execute(Decode(w))`, the pc already advanced (70_reset_and_hazards.md R232). -/
def execWord (w : Word) (s : State) : Host.Outcome State Fault Refusal :=
  match decodeWord w with
  | .ok i => exec i s
  | .error _ => execUnsupported w s

/-- The step of a core that is RUNNING. A fetch fault changes no state but RUN and FAULT: the pc keeps the
address whose fetch failed, and FAULT holds no word (60_exceptions.md R188; log 10). -/
def cycle (s : State) : Host.Outcome State Fault Refusal :=
  match readWord s.pc.toNat s with
  | .ok w s' => execWord w s'.advance
  | .raise kind info s' => .next (s'.takeFault kind none s.pc info)
  | .stuck f => .fault f

/-- `Step`: enabled when RUN = RUNNING; in WAIT_KEY and FAULTED it has no effect (70_reset_and_hazards.md
R232). The first Step ends the start-up (R222; log 6). -/
def coreStep (s : State) : Host.Outcome State Fault Refusal :=
  match s.run with
  | .running => cycle s.start
  | .waitKey => .next s
  | .faulted => .next s

end Sys2Proof.Machine
end

