-- ==== Sys2Proof/Machine/HostEvents.lean ====
section
/-! DEFINITION. What the host does to the machine between two steps, and what it reads
(60_exceptions.md R193 to R204; 70_reset_and_hazards.md R220 to R224). -/

namespace Sys2Proof.Machine

/-! ## Timers -/

/-- One tick of one timer: a timer at zero stays at zero (60_exceptions.md R194). -/
def countDown (t : Byte) : Byte := if t.toNat > 0 then t - 1#8 else t

/-- `Tick()` (60_exceptions.md R194). -/
def State.tick (s : State) : State := { s with dt := countDown s.dt, st := countDown s.st }

/-- The host zeroes ST after a pulse, in mode zero_after_pulse only (60_exceptions.md R196). DESIGN CHOICE: in every
run state, WAIT_KEY and FAULTED too (R196 says "at any point between steps", R193 of FAULTED "nothing else";
log 8). -/
def soundPulse (mode : SoundTimerMode) (s : State) : Host.Outcome State Fault Refusal :=
  match mode with
  | .countdown => .refused .soundPulseInCountdownMode
  | .zeroAfterPulse => .next { s with st := 0x00#8 }

/-- `sound_active` (60_exceptions.md R195). -/
def State.soundActive (s : State) : Bool := s.st != 0x00#8

/-! ## Keys -/

/-- A waiting core takes the code k < 16 of a key-down into V[WAIT_X] and runs again (60_exceptions.md R199). -/
def State.endKeyWait (s : State) (k : Nat) : State :=
  match s.run with
  | .waitKey => { s.setV s.waitX (BitVec.ofNat 8 k) with run := .running }
  | .running => s
  | .faulted => s

/-- `KeyDown(k)`: the flag, then the end of a wait; a code of 16 or more changes nothing
(60_exceptions.md R197, R199). -/
def State.keyDown (s : State) (k : Nat) : State :=
  if k < 16 then (s.setKey k true).endKeyWait k else s

/-- `KeyUp(k)` (60_exceptions.md R197). -/
def State.keyUp (s : State) (k : Nat) : State := s.setKey k false

/-- `VirtualCodeOf(h)`: the first slot that holds h (60_exceptions.md R198). -/
def virtualCodeOf (table : KeyMap) (h : HostKeyId) : Option Nat := table.toList.findIdx? (· == h)

/-- A host key resolved through KEYMAP; nothing is resolved before the map is installed
(60_exceptions.md R198; log 7). -/
def State.resolveKey (s : State) (h : HostKeyId) : Option Nat :=
  match s.keyMap with
  | some table => virtualCodeOf table h
  | none => none

/-- A resolved key is delivered; an unresolved identifier is ignored (60_exceptions.md R198). -/
def deliverKey (deliver : State → Nat → State) (h : HostKeyId) (s : State) : State :=
  match s.resolveKey h with
  | some k => deliver s k
  | none => s

/-- `set_mapping(table)` (60_exceptions.md R198). -/
def State.setMapping (s : State) (table : KeyMap) : State := { s with keyMap := some table, mapped := true }

/-- The set_mapping event: once, and before the host begins to deliver Step, Tick and key events
(70_reset_and_hazards.md R222). DESIGN CHOICE: once per start-up, so that a Reset makes room for another table, and
the old one holds until then (log 6, log 7). -/
def installMapping (table : KeyMap) (s : State) : Host.Outcome State Fault Refusal :=
  if s.started then .refused .mappingAfterStart
  else if s.mapped then .refused .mappingInstalledTwice
  else .next (s.setMapping table)

/-- A key-down event as the host delivers it (70_reset_and_hazards.md R222). -/
def State.deliverKeyDown (s : State) (k : Nat) : State := (s.keyDown k).start

/-- A key-up event as the host delivers it (70_reset_and_hazards.md R222). -/
def State.deliverKeyUp (s : State) (k : Nat) : State := (s.keyUp k).start

/-! ## Reset and load -/

/-- Reset: every piece of the block's state to its reset value, in any run state (70_reset_and_hazards.md R220).
KEYMAP and the model's own trace are not the block's state and stay (log 7). -/
def State.applyReset (s : State) : State :=
  { State.reset with keyMap := s.keyMap, draws := s.draws, diags := s.diags, schedule := s.schedule }

/-- Byte j of an image goes to address a + j (70_reset_and_hazards.md R224). -/
def Memory.writeImage : Memory → Nat → List Byte → Memory
  | m, _, [] => m
  | m, a, b :: bs => Memory.writeImage (m.write a b) (a + 1) bs

/-- Program load: before the host begins to deliver Step, Tick and key events, and an image longer than 3584 bytes
is rejected before any byte is written (70_reset_and_hazards.md R222, R224; 20_memory.md R56; log 6). DESIGN CHOICE:
the spec speaks of one load and not of a repeat; a second load of one start-up is taken, and is laid over the first,
so that a shorter image leaves the tail of the longer one (log 6). -/
def loadImage (image : List Byte) (s : State) : Host.Outcome State Fault Refusal :=
  if s.started then .refused .loadAfterStart
  else if Config.programBase + image.length > Config.memSize then .refused .romTooLarge
  else .next { s with mem := s.mem.writeImage Config.programBase image }

/-! ## The events -/

/-- One host event, taken as a whole (60_exceptions.md R204). -/
def hostEvent (e : HostEvent) (s : State) : Host.Outcome State Fault Refusal :=
  match e with
  | .step => coreStep s
  | .tick => .next s.tick.start
  | .keyDown k => .next (s.deliverKeyDown k)
  | .keyUp k => .next (s.deliverKeyUp k)
  | .reset => .next s.applyReset
  | .load image => loadImage image s
  | .setMapping table => installMapping table s
  | .hostKeyDown h => .next (deliverKey State.deliverKeyDown h s)
  | .hostKeyUp h => .next (deliverKey State.deliverKeyUp h s)
  | .soundPulse => soundPulse Config.soundTimerMode s

/-- The next event of the schedule, or, when none is left, a Step (60_exceptions.md R204; log 3). -/
def nextEvent (s : State) : Host.Outcome State Fault Refusal :=
  match s.schedule with
  | [] => coreStep s
  | e :: rest => hostEvent e { s with schedule := rest }

/-! ## What the host reads -/

/-- The pixel query of the renderer, with its own bounds check, which is no fault of the core: `none` is its
OutOfBounds (60_exceptions.md R200). -/
def State.isSet (s : State) (x y : Nat) : Option Bool :=
  if hx : x < 64 then
    if hy : y < 32 then some (pixel s.fb ⟨x, hx⟩ ⟨y, hy⟩) else none
  else none

/-! ## Placing an instruction -/

/-- The pc an instruction can be placed at: the state's own where the fetch can succeed there, else the reset
pc (20_memory.md R44). -/
def State.fetchablePc (s : State) : Word := if s.pc.toNat + 1 < Config.memSize then s.pc else resetPc

/-- s with the word w stored high byte first at the pc, the core RUNNING with nothing recorded and no host
event waiting, so that the next step fetches and runs w (20_memory.md R44; log 14). -/
def State.placeWord (s : State) (w : Word) : State :=
  { s with
    pc := s.fetchablePc
    mem := (s.mem.write s.fetchablePc.toNat (Decode.highByte w)).write (s.fetchablePc.toNat + 1) (Decode.lowByte w)
    run := .running
    fault := none
    schedule := [] }

end Sys2Proof.Machine
end

