-- ==== Sys2Proof/Machine/Step.lean ====
section
/-! DEFINITION. The step of the machine, and an instruction placed where it fetches next. -/

namespace Sys2Proof.Machine

/-- One step: the next event of the host's schedule, a Step of the core when none is left
(60_exceptions.md R204; 70_reset_and_hazards.md R232; log 3). -/
def step (s : State) : Host.Outcome State Fault Refusal := nextEvent s

/-- s with the instruction whose table bits are w stored where `step` fetches next. -/
def State.withFetchWord (s : State) (nbits w : Nat) : State := s.placeWord (Decode.tableWord nbits w)

end Sys2Proof.Machine
end

