-- ==== Sys2Proof/Safety.lean ====
section
/-! DEFINITION. What claims are stated in: a run that has not faulted, the end of a run, the invariant of every state a run from
reset reaches, and what each instruction may write. -/

namespace Sys2Proof.Machine

/-- No fault has been taken: "a FAULTED state is never a successful end of a run" (60_exceptions.md R189). -/
def State.Safe (s : State) : Prop := s.run ≠ .faulted

/-- The kinds that FAULT can hold: codes 4 and 5 never stand in it (60_exceptions.md R181). -/
def ErrorKind.isCoreFault : ErrorKind → Bool
  | .outOfBounds => true
  | .stackOverflow => true
  | .stackUnderflow => true
  | .unsupportedOpcode => false
  | .romTooLarge => false

/-- The bounds of the pc and of the return addresses (10_state.md R16). -/
def State.AddressesBounded (s : State) : Prop :=
  s.pc.toNat ≤ 0x10FE ∧ ∀ t ∈ s.stack.toList, t.toNat ≤ 0x1000

/-- FAULT is recorded exactly in FAULTED, and holds a fault of the core (10_state.md R28; 60_exceptions.md
R181). -/
def State.FaultRecorded (s : State) : Prop :=
  (s.run = .faulted ↔ s.fault ≠ none) ∧ ∀ f, s.fault = some f → f.kind.isCoreFault = true

/-- A core that is held has begun to run: the start-up is over (60_exceptions.md R193; 70_reset_and_hazards.md
R222). -/
def State.HeldOnlyAfterStart (s : State) : Prop := s.run ≠ .running → s.started = true

/-- What holds in every state reachable from reset (10_state.md R16, R28); the widths of the registers are
carried by their types. -/
def State.Inv (s : State) : Prop :=
  s.sp.toNat ≤ Config.stackDepth ∧ s.AddressesBounded ∧ s.mem.wf = true ∧ s.FaultRecorded ∧ s.HeldOnlyAfterStart

/-- The end of a run, which "a model must define" (70_reset_and_hazards.md R226). DESIGN CHOICE: the predicate of the
spec's own test programs, "pc holds the address of a `JP` to itself and RUN = RUNNING" (log 19). A run that enters
FAULTED is never a successful end, and one in WAIT_KEY lasts until a key-down. -/
def State.EndOfRun (s : State) : Prop :=
  s.run = .running ∧ s.pc.toNat + 1 < Config.memSize ∧
    Decode.wordOfBytes (s.mem.read s.pc.toNat) (s.mem.read (s.pc.toNat + 1)) = encode (.jp (s.pc.setWidth 12))

/-- The general registers an instruction may write (10_state.md R10, R32). -/
def destRegs : Instr → List Nibble
  | .cls => []
  | .ret => []
  | .jp _ => []
  | .call _ => []
  | .seImm _ _ => []
  | .sneImm _ _ => []
  | .seReg _ _ _ => []
  | .ldImm x _ => [x]
  | .addImm x _ => [x]
  | .ldReg x _ => [x]
  | .orReg x _ => [x]
  | .andReg x _ => [x]
  | .xorReg x _ => [x]
  | .addReg x _ => [x, vf]
  | .subReg x _ => [x, vf]
  | .shr x _ => [x, vf]
  | .subnReg x _ => [x, vf]
  | .shl x _ => [x, vf]
  | .sneReg _ _ _ => []
  | .ldI _ => []
  | .jpV0 _ => []
  | .rnd x _ => [x]
  | .drw _ _ _ => [vf]
  | .skp _ => []
  | .sknp _ => []
  | .ldVxDt x => [x]
  | .ldVxK _ => []
  | .ldDtVx _ => []
  | .ldStVx _ => []
  | .addI _ => []
  | .ldF _ => []
  | .ldB _ => []
  | .storeRegs _ => []
  | .loadRegs x => (regsUpTo x).map regOf

/-- The addresses an instruction stores to, computed in the state it executes in (42_index_memory.md R123,
R124); every other instruction stores nothing. -/
def storedAddrs (s : State) : Instr → List Nat
  | .ldB _ => [s.ea 0, s.ea 1, s.ea 2]
  | .storeRegs x => (regsUpTo x).map s.ea
  | .cls => []
  | .ret => []
  | .jp _ => []
  | .call _ => []
  | .seImm _ _ => []
  | .sneImm _ _ => []
  | .seReg _ _ _ => []
  | .ldImm _ _ => []
  | .addImm _ _ => []
  | .ldReg _ _ => []
  | .orReg _ _ => []
  | .andReg _ _ => []
  | .xorReg _ _ => []
  | .addReg _ _ => []
  | .subReg _ _ => []
  | .shr _ _ => []
  | .subnReg _ _ => []
  | .shl _ _ => []
  | .sneReg _ _ _ => []
  | .ldI _ => []
  | .jpV0 _ => []
  | .rnd _ _ => []
  | .drw _ _ _ => []
  | .skp _ => []
  | .sknp _ => []
  | .ldVxDt _ => []
  | .ldVxK _ => []
  | .ldDtVx _ => []
  | .ldStVx _ => []
  | .addI _ => []
  | .ldF _ => []
  | .loadRegs _ => []

end Sys2Proof.Machine
end

