-- ==== Sys2Proof/WellFormed.lean ====
section
/-! DEFINITION. The form an assembler emits. The range of every operand is carried by its type, so the one
check left is 30_encoding.md R73: where the hardware ignores a field, an assembler writes it as 0. The machine
decodes and executes the other words all the same (R69), and no meaning and no statement rests on this check. -/

namespace Sys2Proof

/-- The ignored field of a word is written as 0 (30_encoding.md R73). -/
def ignoredFieldIsZero (ign : Nibble) : Bool := ign == 0#4

/-- The instruction as an assembler emits it (30_encoding.md R73). -/
def Instr.wellFormed : Instr → Bool
  | .cls => true
  | .ret => true
  | .jp _ => true
  | .call _ => true
  | .seImm _ _ => true
  | .sneImm _ _ => true
  | .seReg _ _ ign => ignoredFieldIsZero ign
  | .ldImm _ _ => true
  | .addImm _ _ => true
  | .ldReg _ _ => true
  | .orReg _ _ => true
  | .andReg _ _ => true
  | .xorReg _ _ => true
  | .addReg _ _ => true
  | .subReg _ _ => true
  | .shr _ ign => ignoredFieldIsZero ign
  | .subnReg _ _ => true
  | .shl _ ign => ignoredFieldIsZero ign
  | .sneReg _ _ ign => ignoredFieldIsZero ign
  | .ldI _ => true
  | .jpV0 _ => true
  | .rnd _ _ => true
  | .drw _ _ _ => true
  | .skp _ => true
  | .sknp _ => true
  | .ldVxDt _ => true
  | .ldVxK _ => true
  | .ldDtVx _ => true
  | .ldStVx _ => true
  | .addI _ => true
  | .ldF _ => true
  | .ldB _ => true
  | .storeRegs _ => true
  | .loadRegs _ => true

end Sys2Proof
end

