-- ==== Sys2Proof/Certificates/Slice0/Obligations.lean ====
section
/-! DEFINITION. The statements for the provers, from the numbered rules of spec/. In a statement about `exec` the
pc has been advanced by the fetch, so the instruction stands at `s.pc - 2` (10_state.md R15). Where a statement says
`t = { s with f := t.f }`, every field but f is unchanged: that is the frame. -/

open Sys2Proof Sys2Proof.Machine

namespace Sys2Proof.Claims

/-- t is s but for register x, which holds b. -/
def RegisterWritten (s t : State) (x : Nibble) (b : Byte) : Prop :=
  t.getV x = b ∧ (∀ r, r ≠ x → t.getV r = s.getV r) ∧ t = { s with v := t.v }

/-- t is s but for VF, which holds the flag, and register x, which holds the result; with x = 15 the result stays. -/
def FlagAndResultWritten (s t : State) (x : Nibble) (flag result : Byte) : Prop :=
  t.getV x = result ∧ (x ≠ vf → t.getV vf = flag) ∧ (∀ r, r ≠ x → r ≠ vf → t.getV r = s.getV r) ∧
    t = { s with v := t.v }

/-- s in FAULTED, with the record of a fault of the instruction word w that executes in s. -/
def faultedAt (s : State) (kind : ErrorKind) (w : Word) (info : Option Nat) : State :=
  { s with run := .faulted, fault := some { kind := kind, word := some w, addr := s.pc - 2#16, info := info } }

/-- s after a fetch that leaves the memory: FAULTED, with the first address outside. -/
def fetchFaulted (s : State) : State :=
  { s with
    run := .faulted
    fault := some { kind := .outOfBounds, word := none, addr := s.pc,
                    info := some (if 0x1000 ≤ s.pc.toNat then s.pc.toNat else 0x1000) }
    started := true }

/-- s after an unsupported word: the pc past it, and a diagnostic with the word and its address. -/
def reported (s : State) : State :=
  { s with
    pc := s.pc + 2#16
    diags := s.diags ++ [{ word := s.mem.read s.pc.toNat ++ s.mem.read (s.pc.toNat + 1), addr := s.pc }]
    started := true }

/-- The memory of t is that of s but for the n bytes at I, I+1, ... that are inside the memory; byte k is `f k`. -/
def BlockStored (s t : State) (n : Nat) (f : Nat → Byte) : Prop :=
  (∀ k, k < n → s.iReg.toNat + k < 4096 → t.mem.read (s.iReg.toNat + k) = f k) ∧
    ∀ a, (∀ k, k < n → s.iReg.toNat + k < 4096 → a ≠ s.iReg.toNat + k) → t.mem.read a = s.mem.read a

/-- The decimal digits of a byte: hundreds, tens, units. -/
def bcdDigit (b : Byte) : Nat → Byte
  | 0 => BitVec.ofNat 8 (b.toNat / 100)
  | 1 => BitVec.ofNat 8 (b.toNat / 10 % 10)
  | _ => BitVec.ofNat 8 (b.toNat % 10)

/-- Pixel (px, py) lies under a 1 bit of the n-row sprite at I, drawn at (Vx, Vy): bit 7 of a row is its leftmost
pixel, and both coordinates wrap. -/
def UnderSpriteBit (s : State) (x y n : Nibble) (px : Fin 64) (py : Fin 32) : Prop :=
  ∃ r c : Nat, r < n.toNat ∧ c < 8 ∧ (s.mem.read (s.iReg.toNat + r)).getLsbD (7 - c) = true ∧
    px.val = ((s.getV x).toNat + c) % 64 ∧ py.val = ((s.getV y).toNat + r) % 32

/-- The instructions that can raise a fault. -/
def canFault : Instr → Bool
  | .ret => true
  | .call _ => true
  | .skp _ => true
  | .sknp _ => true
  | .drw _ _ _ => true
  | .ldB _ => true
  | .storeRegs _ => true
  | .loadRegs _ => true
  | _ => false

/-- The kind of fault an instruction can raise. -/
def faultKindOf : Instr → ErrorKind
  | .ret => .stackUnderflow
  | .call _ => .stackOverflow
  | _ => .outOfBounds

/-- The instructions that can change the pc. -/
def isTransfer : Instr → Bool
  | .ret => true
  | .jp _ => true
  | .call _ => true
  | .jpV0 _ => true
  | .seImm _ _ => true
  | .sneImm _ _ => true
  | .seReg _ _ _ => true
  | .sneReg _ _ _ => true
  | .skp _ => true
  | .sknp _ => true
  | _ => false

end Sys2Proof.Claims

open Sys2Proof.Claims

/-! ## Encoding -/

/-- 30_encoding.md section 3: no field of an instruction is lost in its word. -/
def Obligations.DecodeOfEncodeIsTheInstruction : Prop :=
  ∀ i : Instr, decodeWord (encode i) = .ok i

/-- 30_encoding.md section 3: no bit of a supported word is lost in its instruction, the ignored fields included. -/
def Obligations.EncodeOfDecodeIsTheWord : Prop :=
  ∀ (w : Word) (i : Instr), decodeWord w = .ok i → encode i = w

/-- 30_encoding.md R70 (derived there): the unsupported words, family by family. -/
def Obligations.UnsupportedWordsAreExactlyThese : Prop :=
  ∀ w : Word, (∃ r, decodeWord w = .error r) ↔
    (w.toNat / 0x1000 = 0x0 ∧ w ≠ 0x00E0#16 ∧ w ≠ 0x00EE#16) ∨
    (w.toNat / 0x1000 = 0x8 ∧ w.toNat % 0x10 ∈ [0x8, 0x9, 0xA, 0xB, 0xC, 0xD, 0xF]) ∨
    (w.toNat / 0x1000 = 0xE ∧ w.toNat % 0x100 ∉ [0x9E, 0xA1]) ∨
    (w.toNat / 0x1000 = 0xF ∧ w.toNat % 0x100 ∉ [0x07, 0x0A, 0x15, 0x18, 0x1E, 0x29, 0x33, 0x55, 0x65])

/-- Words of 95_test_vectors.md, each of the sixteen families at least once, decode as the spec says; the bytes are in
the order in which they stand in memory. -/
def Obligations.SampleWordsDecode : Prop :=
  decodeBytes [0x00, 0xE0] = .ok (.cls, []) ∧ decodeBytes [0x1F, 0xFF] = .ok (.jp 0xFFF, []) ∧
  decodeBytes [0x2A, 0xBC, 0x12] = .ok (.call 0xABC, [0x12]) ∧ decodeBytes [0x31, 0x00] = .ok (.seImm 0x1 0x00, []) ∧
  decodeBytes [0x43, 0x08] = .ok (.sneImm 0x3 0x08, []) ∧ decodeBytes [0x51, 0x27] = .ok (.seReg 0x1 0x2 0x7, []) ∧
  decodeBytes [0x6F, 0xAB] = .ok (.ldImm 0xF 0xAB, []) ∧ decodeBytes [0x71, 0x22] = .ok (.addImm 0x1 0x22, []) ∧
  decodeBytes [0x81, 0x25] = .ok (.subReg 0x1 0x2, []) ∧ decodeBytes [0x8F, 0xFE] = .ok (.shl 0xF 0xF, []) ∧
  decodeBytes [0x9A, 0xAF] = .ok (.sneReg 0xA 0xA 0xF, []) ∧ decodeBytes [0xAF, 0xFF] = .ok (.ldI 0xFFF, []) ∧
  decodeBytes [0xB3, 0x00] = .ok (.jpV0 0x300, []) ∧ decodeBytes [0xC3, 0x0F] = .ok (.rnd 0x3 0x0F, []) ∧
  decodeBytes [0xD0, 0x15] = .ok (.drw 0x0 0x1 0x5, []) ∧ decodeBytes [0xE4, 0xA1] = .ok (.sknp 0x4, []) ∧
  decodeBytes [0xF3, 0x0A] = .ok (.ldVxK 0x3, []) ∧ decodeBytes [0xF5, 0x65] = .ok (.loadRegs 0x5, []) ∧
  decodeBytes [0x01, 0xE0] = .error .family0 ∧ decodeBytes [0x81, 0x28] = .error .family8 ∧
  decodeBytes [0xE1, 0x9F] = .error .familyE ∧ decodeBytes [0xF1, 0x75] = .error .familyF

/-! ## The step -/

/-- 70_reset_and_hazards.md R232: the two bytes at the pc are the word, high byte first; the pc moves past them; the
instruction executes. The step is a core Step when no host event waits (log 3) or when the next event is a Step.
`started` is the model's own mark that the start-up is over (log 6). -/
def Obligations.StepRunsTheDecodedInstruction : Prop :=
  ∀ (s : State) (i : Instr), s.run = .running → s.pc.toNat + 1 < 4096 →
    decodeBytes [s.mem.read s.pc.toNat, s.mem.read (s.pc.toNat + 1)] = .ok (i, []) →
    (s.schedule = [] → step s = exec i { s with pc := s.pc + 2#16, started := true }) ∧
    ∀ rest, s.schedule = .step :: rest →
      step s = exec i { s with pc := s.pc + 2#16, started := true, schedule := rest }

/-- 60_exceptions.md R204: the host's events are taken one at a time and whole: a step whose schedule is not empty takes
its first event off, and is that event (log 3). -/
def Obligations.StepTakesTheNextHostEvent : Prop :=
  (∀ (s : State) (e : HostEvent) (rest : List HostEvent), s.schedule = e :: rest →
    step s = hostEvent e { s with schedule := rest }) ∧
  ∀ s : State, s.schedule = [] → step s = hostEvent .step s

/-- 20_memory.md R44 and 60_exceptions.md R188 (the spec's decision D7): a fetch from 0xFFF or above changes nothing
but RUN and FAULT; the pc keeps the address, and the first address outside is reported (log 10). -/
def Obligations.FetchOutsideMemoryFaults : Prop :=
  ∀ s : State, s.run = .running → 0xFFF ≤ s.pc.toNat → (s.schedule = [] → step s = .next (fetchFaulted s)) ∧
    ∀ rest, s.schedule = .step :: rest → step s = .next (fetchFaulted { s with schedule := rest })

/-- 30_encoding.md R71: an unsupported word is a no-operation with a diagnostic; the fetch has moved the pc on. That the
diagnostic names the word and its address, and is kept in a field, is decision D15 and the model's choice (log 4). -/
def Obligations.UnsupportedWordOnlyReports : Prop :=
  ∀ (s : State) (r : Reject), s.run = .running → s.pc.toNat + 1 < 4096 →
    decodeBytes [s.mem.read s.pc.toNat, s.mem.read (s.pc.toNat + 1)] = .error r →
    (s.schedule = [] → step s = .next (reported s)) ∧
    ∀ rest, s.schedule = .step :: rest → step s = .next (reported { s with schedule := rest })

/-- 70_reset_and_hazards.md R232: in WAIT_KEY and in FAULTED a Step has no effect. -/
def Obligations.StepHasNoEffectWhileHeld : Prop :=
  ∀ s : State, s.run ≠ .running → (s.schedule = [] → step s = .next s) ∧
    ∀ rest, s.schedule = .step :: rest → step s = .next { s with schedule := rest }

/-- 70_reset_and_hazards.md R226: at the end of a run, as the model defines it (the spec's decision D27; log 19), a
Step is the jump of the pc to itself: nothing changes but the mark of the start-up, and the run stays at its end. -/
def Obligations.SelfJumpEndsTheRun : Prop :=
  ∀ s : State, s.EndOfRun →
    (s.schedule = [] → step s = .next { s with started := true }) ∧
    (∀ rest, s.schedule = .step :: rest → step s = .next { s with started := true, schedule := rest }) ∧
    ∀ rest, ({ s with started := true, schedule := rest } : State).EndOfRun

/-! ## Control transfer -/

/-- 40_control_transfer.md R80. The record of the fault is the spec's own decision D5 (log 10). -/
def Obligations.RetPopsTheReturnAddress : Prop :=
  decodeWord 0x00EE#16 = .ok .ret ∧
  (∀ (s : State) (t : Word), 0 < s.sp.toNat → s.stack[s.sp.toNat - 1]? = some t →
    exec .ret s = .next { s with pc := t, sp := s.sp - 1#8 }) ∧
  ∀ s : State, s.sp.toNat = 0 → exec .ret s = .next (faultedAt s .stackUnderflow 0x00EE#16 none)

/-- 40_control_transfer.md R82. The record of the fault is the spec's own decision D5 (log 10). -/
def Obligations.CallPushesTheNextAddress : Prop :=
  (∀ w : Word, w.extractLsb' 12 4 = 0x2#4 → decodeWord w = .ok (.call (w.extractLsb' 0 12))) ∧
  (∀ (s : State) (nnn : Addr12) (h : s.sp.toNat < 16),
    exec (.call nnn) s =
      .next { s with stack := s.stack.set s.sp.toNat s.pc h, sp := s.sp + 1#8, pc := nnn.setWidth 16 }) ∧
  ∀ (s : State) (nnn : Addr12), s.sp.toNat = 16 →
    exec (.call nnn) s = .next (faultedAt s .stackOverflow (0x2#4 ++ nnn) none)

/-- 40_control_transfer.md R81 and R87. -/
def Obligations.JumpsGoToTheirTargets : Prop :=
  (∀ w : Word, w.extractLsb' 12 4 = 0x1#4 → decodeWord w = .ok (.jp (w.extractLsb' 0 12))) ∧
  (∀ w : Word, w.extractLsb' 12 4 = 0xB#4 → decodeWord w = .ok (.jpV0 (w.extractLsb' 0 12))) ∧
  ∀ (s : State) (nnn : Addr12),
    exec (.jp nnn) s = .next { s with pc := nnn.setWidth 16 } ∧
    exec (.jpV0 nnn) s = .next { s with pc := nnn.setWidth 16 + (s.getV 0x0#4).setWidth 16 }

/-- 40_control_transfer.md R83 to R86, R88: a skip passes over one word, and one not taken changes nothing. -/
def Obligations.SkipsPassOneWord : Prop :=
  (∀ w : Word,
    (w.extractLsb' 12 4 = 0x3#4 → decodeWord w = .ok (.seImm (w.extractLsb' 8 4) (w.extractLsb' 0 8))) ∧
    (w.extractLsb' 12 4 = 0x4#4 → decodeWord w = .ok (.sneImm (w.extractLsb' 8 4) (w.extractLsb' 0 8))) ∧
    (w.extractLsb' 12 4 = 0x5#4 →
      decodeWord w = .ok (.seReg (w.extractLsb' 8 4) (w.extractLsb' 4 4) (w.extractLsb' 0 4))) ∧
    (w.extractLsb' 12 4 = 0x9#4 →
      decodeWord w = .ok (.sneReg (w.extractLsb' 8 4) (w.extractLsb' 4 4) (w.extractLsb' 0 4)))) ∧
  ∀ (s : State) (x y ign : Nibble) (kk : Byte),
    exec (.seImm x kk) s = .next (if s.getV x = kk then { s with pc := s.pc + 2#16 } else s) ∧
    exec (.sneImm x kk) s = .next (if s.getV x ≠ kk then { s with pc := s.pc + 2#16 } else s) ∧
    exec (.seReg x y ign) s = .next (if s.getV x = s.getV y then { s with pc := s.pc + 2#16 } else s) ∧
    exec (.sneReg x y ign) s = .next (if s.getV x ≠ s.getV y then { s with pc := s.pc + 2#16 } else s)

/-- 40_control_transfer.md R80, R82: the RET of a CALL resumes at the instruction after it, whatever the subroutine
did to the rest of the state, and leaves SP as it was. -/
def Obligations.RetResumesAfterItsCall : Prop :=
  ∀ (s t u : State) (nnn : Addr12), s.sp.toNat < 16 → exec (.call nnn) s = .next t → u.sp = t.sp →
    u.stack = t.stack → ∃ r, exec .ret u = .next r ∧ r.pc = s.pc ∧ r.sp = s.sp ∧ r = { u with pc := r.pc, sp := r.sp }

/-- The model's choice (log 5): with SP in 17..255, which no run reaches (10_state.md R17), CALL and RET stop. -/
def Obligations.CallAndRetStopOnAnIllegalStackPointer : Prop :=
  ∀ (s : State) (nnn : Addr12), 16 < s.sp.toNat →
    exec (.call nnn) s = .fault .stackPointerOutOfRange ∧ exec .ret s = .fault .stackPointerOutOfRange

/-! ## Load, arithmetic and logic -/

/-- 41_load_alu.md R100, R101, R102. -/
def Obligations.LoadsAndImmediateAddWriteVx : Prop :=
  (∀ w : Word,
    (w.extractLsb' 12 4 = 0x6#4 → decodeWord w = .ok (.ldImm (w.extractLsb' 8 4) (w.extractLsb' 0 8))) ∧
    (w.extractLsb' 12 4 = 0x7#4 → decodeWord w = .ok (.addImm (w.extractLsb' 8 4) (w.extractLsb' 0 8))) ∧
    (w.extractLsb' 12 4 = 0x8#4 → w.extractLsb' 0 4 = 0x0#4 →
      decodeWord w = .ok (.ldReg (w.extractLsb' 8 4) (w.extractLsb' 4 4)))) ∧
  ∀ (s : State) (x y : Nibble) (kk : Byte),
    (∃ t, exec (.ldImm x kk) s = .next t ∧ RegisterWritten s t x kk) ∧
    (∃ t, exec (.addImm x kk) s = .next t ∧ RegisterWritten s t x (s.getV x + kk)) ∧
    (∃ t, exec (.ldReg x y) s = .next t ∧ RegisterWritten s t x (s.getV y))

/-- 41_load_alu.md R103, R104, R105: no flag, so VF is unchanged unless it is the destination. -/
def Obligations.LogicOperationsWriteVx : Prop :=
  (∀ w : Word, w.extractLsb' 12 4 = 0x8#4 →
    (w.extractLsb' 0 4 = 0x1#4 → decodeWord w = .ok (.orReg (w.extractLsb' 8 4) (w.extractLsb' 4 4))) ∧
    (w.extractLsb' 0 4 = 0x2#4 → decodeWord w = .ok (.andReg (w.extractLsb' 8 4) (w.extractLsb' 4 4))) ∧
    (w.extractLsb' 0 4 = 0x3#4 → decodeWord w = .ok (.xorReg (w.extractLsb' 8 4) (w.extractLsb' 4 4)))) ∧
  ∀ (s : State) (x y : Nibble),
    (∃ t, exec (.orReg x y) s = .next t ∧ RegisterWritten s t x (s.getV x ||| s.getV y)) ∧
    (∃ t, exec (.andReg x y) s = .next t ∧ RegisterWritten s t x (s.getV x &&& s.getV y)) ∧
    (∃ t, exec (.xorReg x y) s = .next t ∧ RegisterWritten s t x (s.getV x ^^^ s.getV y))

/-- 41_load_alu.md R106. That the sum stays where x = 15 is the spec's own decision D9 (R119; log 9). -/
def Obligations.AddSetsCarryThenSum : Prop :=
  (∀ w : Word, w.extractLsb' 12 4 = 0x8#4 → w.extractLsb' 0 4 = 0x4#4 →
    decodeWord w = .ok (.addReg (w.extractLsb' 8 4) (w.extractLsb' 4 4))) ∧
  ∀ (s : State) (x y : Nibble), ∃ t, exec (.addReg x y) s = .next t ∧
    FlagAndResultWritten s t x (if 255 < (s.getV x).toNat + (s.getV y).toNat then 1#8 else 0#8)
      (s.getV x + s.getV y)

/-- 41_load_alu.md R107, R112: the comparison is strict. That the difference stays where x = 15 is the spec's own
decision D9 (R119; log 9). -/
def Obligations.SubtractionsSetStrictFlagThenDifference : Prop :=
  (∀ w : Word, w.extractLsb' 12 4 = 0x8#4 →
    (w.extractLsb' 0 4 = 0x5#4 → decodeWord w = .ok (.subReg (w.extractLsb' 8 4) (w.extractLsb' 4 4))) ∧
    (w.extractLsb' 0 4 = 0x7#4 → decodeWord w = .ok (.subnReg (w.extractLsb' 8 4) (w.extractLsb' 4 4)))) ∧
  ∀ (s : State) (x y : Nibble),
    (∃ t, exec (.subReg x y) s = .next t ∧
      FlagAndResultWritten s t x (if (s.getV y).toNat < (s.getV x).toNat then 1#8 else 0#8)
        (s.getV x - s.getV y)) ∧
    ∃ t, exec (.subnReg x y) s = .next t ∧
      FlagAndResultWritten s t x (if (s.getV x).toNat < (s.getV y).toNat then 1#8 else 0#8)
        (s.getV y - s.getV x)

/-- 41_load_alu.md R111, R113: the y field is ignored. That the shifted value stays where x = 15 is the spec's own
decision D9 (R119; log 9). -/
def Obligations.ShiftsSetTheBitShiftedOut : Prop :=
  (∀ w : Word, w.extractLsb' 12 4 = 0x8#4 →
    (w.extractLsb' 0 4 = 0x6#4 → decodeWord w = .ok (.shr (w.extractLsb' 8 4) (w.extractLsb' 4 4))) ∧
    (w.extractLsb' 0 4 = 0xE#4 → decodeWord w = .ok (.shl (w.extractLsb' 8 4) (w.extractLsb' 4 4)))) ∧
  ∀ (s : State) (x ign : Nibble),
    (∃ t, exec (.shr x ign) s = .next t ∧
      FlagAndResultWritten s t x (if (s.getV x).getLsbD 0 then 1#8 else 0#8) (s.getV x >>> 1)) ∧
    ∃ t, exec (.shl x ign) s = .next t ∧
      FlagAndResultWritten s t x (if (s.getV x).getLsbD 7 then 1#8 else 0#8) (s.getV x <<< 1)

/-- 41_load_alu.md R114: the byte drawn is free (log 2), the draw is counted so that the next one is another, and
the bits outside kk are 0 whatever is drawn. -/
def Obligations.RndDrawsAfreshUnderTheMask : Prop :=
  (∀ w : Word, w.extractLsb' 12 4 = 0xC#4 → decodeWord w = .ok (.rnd (w.extractLsb' 8 4) (w.extractLsb' 0 8))) ∧
  ∀ (s : State) (x : Nibble) (kk : Byte), ∃ t, exec (.rnd x kk) s = .next t ∧
    RegisterWritten { s with draws := s.draws + 1 } t x (Config.draw8 s.draws &&& kk) ∧
    t.getV x &&& ~~~kk = 0#8

/-! ## Address register and memory -/

/-- 42_index_memory.md R120, R121, R122. -/
def Obligations.AddressRegisterInstructionsWriteI : Prop :=
  (∀ w : Word,
    (w.extractLsb' 12 4 = 0xA#4 → decodeWord w = .ok (.ldI (w.extractLsb' 0 12))) ∧
    (w.extractLsb' 12 4 = 0xF#4 → w.extractLsb' 0 8 = 0x1E#8 → decodeWord w = .ok (.addI (w.extractLsb' 8 4))) ∧
    (w.extractLsb' 12 4 = 0xF#4 → w.extractLsb' 0 8 = 0x29#8 → decodeWord w = .ok (.ldF (w.extractLsb' 8 4)))) ∧
  ∀ (s : State) (x : Nibble) (nnn : Addr12),
    exec (.ldI nnn) s = .next { s with iReg := nnn.setWidth 16 } ∧
    exec (.addI x) s = .next { s with iReg := s.iReg + (s.getV x).setWidth 16 } ∧
    exec (.ldF x) s = .next { s with iReg := (s.getV x).setWidth 16 * 5#16 }

/-- 42_index_memory.md R123; what fits is stored, also where the instruction then faults (the spec's own decisions D5,
D6; log 10). The memory is in canonical form, which every step keeps. -/
def Obligations.BcdStoresThreeDigits : Prop :=
  (∀ w : Word, w.extractLsb' 12 4 = 0xF#4 → w.extractLsb' 0 8 = 0x33#8 → decodeWord w = .ok (.ldB (w.extractLsb' 8 4))) ∧
  ∀ (s : State) (x : Nibble), s.mem.wf = true →
    (s.iReg.toNat + 2 < 4096 → ∃ t, exec (.ldB x) s = .next t ∧
      BlockStored s t 3 (bcdDigit (s.getV x)) ∧ t = { s with mem := t.mem }) ∧
    (4096 ≤ s.iReg.toNat + 2 → ∃ t, exec (.ldB x) s = .next t ∧
      BlockStored s t 3 (bcdDigit (s.getV x)) ∧
      t = faultedAt { s with mem := t.mem } .outOfBounds (0xF#4 ++ x ++ 0x33#8) (some (max 4096 s.iReg.toNat)))

/-- 42_index_memory.md R124; what fits is stored, also where the instruction then faults (the spec's own decisions D5,
D6; log 10). -/
def Obligations.BlockStoreWritesV0ToVx : Prop :=
  (∀ w : Word, w.extractLsb' 12 4 = 0xF#4 → w.extractLsb' 0 8 = 0x55#8 →
    decodeWord w = .ok (.storeRegs (w.extractLsb' 8 4))) ∧
  ∀ (s : State) (x : Nibble), s.mem.wf = true →
    (s.iReg.toNat + x.toNat < 4096 → ∃ t, exec (.storeRegs x) s = .next t ∧
      BlockStored s t (x.toNat + 1) (fun k => s.getV (BitVec.ofNat 4 k)) ∧ t = { s with mem := t.mem }) ∧
    (4096 ≤ s.iReg.toNat + x.toNat → ∃ t, exec (.storeRegs x) s = .next t ∧
      BlockStored s t (x.toNat + 1) (fun k => s.getV (BitVec.ofNat 4 k)) ∧
      t = faultedAt { s with mem := t.mem } .outOfBounds (0xF#4 ++ x ++ 0x55#8) (some (max 4096 s.iReg.toNat)))

/-- 42_index_memory.md R125; what was loaded stays, also where the instruction then faults (the spec's own decisions
D5, D6; log 10). -/
def Obligations.BlockLoadFillsV0ToVx : Prop :=
  (∀ w : Word, w.extractLsb' 12 4 = 0xF#4 → w.extractLsb' 0 8 = 0x65#8 →
    decodeWord w = .ok (.loadRegs (w.extractLsb' 8 4))) ∧
  ∀ (s : State) (x : Nibble), ∃ t, exec (.loadRegs x) s = .next t ∧
    (∀ r : Nibble, r.toNat ≤ x.toNat → s.iReg.toNat + r.toNat < 4096 →
      t.getV r = s.mem.read (s.iReg.toNat + r.toNat)) ∧
    (∀ r : Nibble, x.toNat < r.toNat ∨ 4096 ≤ s.iReg.toNat + r.toNat → t.getV r = s.getV r) ∧
    (s.iReg.toNat + x.toNat < 4096 → t = { s with v := t.v }) ∧
    (4096 ≤ s.iReg.toNat + x.toNat →
      t = faultedAt { s with v := t.v } .outOfBounds (0xF#4 ++ x ++ 0x65#8) (some (max 4096 s.iReg.toNat)))

/-- 95_test_vectors.md S8, from 42_index_memory.md R124, R125, R127: a block stored and loaded back, whatever
happened to the other state in between. -/
def Obligations.BlockLoadGivesBackTheBlockStored : Prop :=
  ∀ (s t u : State) (x : Nibble), s.mem.wf = true → s.iReg.toNat + x.toNat < 4096 →
    exec (.storeRegs x) s = .next t → u.mem = t.mem → u.iReg = t.iReg →
    ∃ w, exec (.loadRegs x) u = .next w ∧ (∀ r : Nibble, r.toNat ≤ x.toNat → w.getV r = s.getV r) ∧
      (∀ r : Nibble, x.toNat < r.toNat → w.getV r = u.getV r) ∧ w = { u with v := w.v }

/-- 20_memory.md R52 (the spec's decision D29; log 18): two bytes stored by LD [I],V1 where the pc then points are the next
instruction. -/
def Obligations.StoredBytesAreTheNextInstruction : Prop :=
  ∀ (s t : State) (i : Instr), s.mem.wf = true → s.iReg.toNat + 1 < 4096 → s.pc = s.iReg → s.run = .running →
    s.schedule = [] → decodeBytes [s.getV 0x0#4, s.getV 0x1#4] = .ok (i, []) → exec (.storeRegs 0x1#4) s = .next t →
    step t = exec i { t with pc := s.pc + 2#16, started := true }

/-! ## Display -/

/-- 43_display.md R140. -/
def Obligations.ClsUnsetsEveryPixel : Prop :=
  decodeWord 0x00E0#16 = .ok .cls ∧
  ∀ s : State, ∃ t, exec .cls s = .next t ∧ (∀ px py, pixel t.fb px py = false) ∧ t = { s with fb := t.fb }

/-- 43_display.md R141 to R145: each pixel under a 1 bit is toggled, VF says whether one of them was set, and both
coordinates wrap. It holds wherever the rows are in the memory, and for n = 0 wherever I points (R146, which the spec
derives); with x or y = 15 the coordinate is the old VF. That the collision is written as 1 or 0 is the spec's own
decision D25 (log 13). The other case is `DrwOutsideMemoryFaults`. -/
def Obligations.DrwXorsTheSpriteAndReportsCollision : Prop :=
  (∀ w : Word, w.extractLsb' 12 4 = 0xD#4 →
    decodeWord w = .ok (.drw (w.extractLsb' 8 4) (w.extractLsb' 4 4) (w.extractLsb' 0 4))) ∧
  ∀ (s : State) (x y n : Nibble), n.toNat = 0 ∨ s.iReg.toNat + n.toNat ≤ 4096 → ∃ t, exec (.drw x y n) s = .next t ∧
    (∀ px py, pixel t.fb px py = true ↔ (pixel s.fb px py = true ↔ ¬ UnderSpriteBit s x y n px py)) ∧
    ((∃ px py, pixel s.fb px py = true ∧ UnderSpriteBit s x y n px py) → t.getV vf = 1#8) ∧
    ((¬ ∃ px py, pixel s.fb px py = true ∧ UnderSpriteBit s x y n px py) → t.getV vf = 0#8) ∧
    (∀ r, r ≠ vf → t.getV r = s.getV r) ∧ t = { s with fb := t.fb, v := t.v }

/-- 43_display.md R141: all rows are read before a pixel changes, so a DRW whose rows leave the memory changes neither
the display nor VF. The record of the fault is the spec's own decision D5 (log 10). -/
def Obligations.DrwOutsideMemoryFaults : Prop :=
  ∀ (s : State) (x y n : Nibble), 0 < n.toNat → 4096 < s.iReg.toNat + n.toNat →
    exec (.drw x y n) s = .next (faultedAt s .outOfBounds (0xD#4 ++ x ++ y ++ n) (some (max 4096 s.iReg.toNat)))

/-- 43_display.md R142, R144, R147: the same sprite drawn twice at the same place restores the display, and the
second draw reports a collision exactly when some pixel under a 1 bit was unset before the first. (R141's corner case
says "if the sprite has any 1 bit", which its own pseudocode bears out only where such a pixel was unset: log 15.) Of
the rest it says that all but the display and the registers is as after the first draw; V0..VE, VF's two values, and the
forms with x or y = 15, where the first draw moves the place, are left to `DrwXorsTheSpriteAndReportsCollision`. -/
def Obligations.DrawingTwiceRestoresTheDisplay : Prop :=
  ∀ (s t : State) (x y n : Nibble), x ≠ vf → y ≠ vf → (n.toNat = 0 ∨ s.iReg.toNat + n.toNat ≤ 4096) →
    exec (.drw x y n) s = .next t → ∃ u, exec (.drw x y n) t = .next u ∧
      (∀ px py, pixel u.fb px py = pixel s.fb px py) ∧
      (u.getV vf = 1#8 ↔ ∃ px py, UnderSpriteBit s x y n px py ∧ pixel s.fb px py = false) ∧
      u = { t with fb := u.fb, v := u.v }

/-! ## Keypad and timers -/

/-- 44_keypad_timers.md R160, R161; the fault on a value of 16 or more is R163's (the spec's decision D10;
log 11). -/
def Obligations.KeySkipsTestTheKeyFlag : Prop :=
  (∀ w : Word, w.extractLsb' 12 4 = 0xE#4 →
    (w.extractLsb' 0 8 = 0x9E#8 → decodeWord w = .ok (.skp (w.extractLsb' 8 4))) ∧
    (w.extractLsb' 0 8 = 0xA1#8 → decodeWord w = .ok (.sknp (w.extractLsb' 8 4)))) ∧
  ∀ (s : State) (x : Nibble),
    (∀ p : Bool, s.key[(s.getV x).toNat]? = some p →
      exec (.skp x) s = .next (if p = true then { s with pc := s.pc + 2#16 } else s) ∧
      exec (.sknp x) s = .next (if p = false then { s with pc := s.pc + 2#16 } else s)) ∧
    (16 ≤ (s.getV x).toNat →
      exec (.skp x) s = .next (faultedAt s .outOfBounds (0xE#4 ++ x ++ 0x9E#8) (some (s.getV x).toNat)) ∧
      exec (.sknp x) s = .next (faultedAt s .outOfBounds (0xE#4 ++ x ++ 0xA1#8) (some (s.getV x).toNat)))

/-- 44_keypad_timers.md R162, R165, R166. -/
def Obligations.TimerMovesCopyOneByte : Prop :=
  (∀ w : Word, w.extractLsb' 12 4 = 0xF#4 →
    (w.extractLsb' 0 8 = 0x07#8 → decodeWord w = .ok (.ldVxDt (w.extractLsb' 8 4))) ∧
    (w.extractLsb' 0 8 = 0x15#8 → decodeWord w = .ok (.ldDtVx (w.extractLsb' 8 4))) ∧
    (w.extractLsb' 0 8 = 0x18#8 → decodeWord w = .ok (.ldStVx (w.extractLsb' 8 4)))) ∧
  ∀ (s : State) (x : Nibble),
    (∃ t, exec (.ldVxDt x) s = .next t ∧ RegisterWritten s t x s.dt) ∧
    exec (.ldDtVx x) s = .next { s with dt := s.getV x } ∧
    exec (.ldStVx x) s = .next { s with st := s.getV x }

/-- 44_keypad_timers.md R164 and 60_exceptions.md R199 (the spec's decision D11; log 16): LD Vx,K begins the wait and changes
nothing else; the first key-down of a code below 16 ends it, and nothing else the host does but Reset. -/
def Obligations.KeyWaitEndsWithAKeyDown : Prop :=
  (∀ w : Word, w.extractLsb' 12 4 = 0xF#4 → w.extractLsb' 0 8 = 0x0A#8 →
    decodeWord w = .ok (.ldVxK (w.extractLsb' 8 4))) ∧
  (∀ (s : State) (x : Nibble), exec (.ldVxK x) s = .next { s with waitX := x, run := .waitKey }) ∧
  (∀ (s : State) (k : Nat) (h : k < 16), s.run = .waitKey → ∃ t, hostEvent (.keyDown k) s = .next t ∧
    RegisterWritten { s with key := s.key.set k true h, run := .running, started := true } t s.waitX (BitVec.ofNat 8 k)) ∧
  ∀ (s t : State) (k : Nat), s.run = .waitKey →
    (hostEvent .step s = .next t ∨ hostEvent .tick s = .next t ∨ hostEvent (.keyUp k) s = .next t ∨
      hostEvent (.keyDown (k + 16)) s = .next t) → t.run = .waitKey ∧ t.waitX = s.waitX ∧ t.v = s.v ∧ t.pc = s.pc

/-! ## Host events -/

/-- 60_exceptions.md R194: both timers count down, and rest at zero (the spec's decision D12; log 17). A Tick
ends the start-up (log 6). -/
def Obligations.TickCountsDownToZero : Prop :=
  ∀ s : State, hostEvent .tick s =
    .next { s with dt := BitVec.ofNat 8 (s.dt.toNat - 1), st := BitVec.ofNat 8 (s.st.toNat - 1), started := true }

/-- 60_exceptions.md R197: a key event sets or clears one flag, in every run state; a code of 16 or more changes nothing.
That the key-down which ends a wait sets its flag too is the spec's own choice (R199, decision D11; log 16); what more
it does is in `KeyWaitEndsWithAKeyDown`. A key event ends the start-up (log 6). -/
def Obligations.KeyEventsSetOneFlag : Prop :=
  (∀ (s : State) (k : Nat) (h : k < 16),
    (∃ t, hostEvent (.keyDown k) s = .next t ∧ t.key = s.key.set k true h) ∧
    (s.run ≠ .waitKey → hostEvent (.keyDown k) s = .next { s with key := s.key.set k true h, started := true }) ∧
    hostEvent (.keyUp k) s = .next { s with key := s.key.set k false h, started := true }) ∧
  ∀ (s : State) (k : Nat), 16 ≤ k →
    hostEvent (.keyDown k) s = .next { s with started := true } ∧
    hostEvent (.keyUp k) s = .next { s with started := true }

/-- 70_reset_and_hazards.md R222: the host installs its key map once, before it begins to deliver Step, Tick and key
events. That once is once per start-up, and that the other cases are refused by names of their own, is the model's
choice (logs 6 and 7). -/
def Obligations.KeyMapIsInstalledOnceBeforeTheStart : Prop :=
  ∀ (s : State) (table : KeyMap),
    (s.started = false → s.mapped = false →
      hostEvent (.setMapping table) s = .next { s with keyMap := some table, mapped := true }) ∧
    (s.started = false → s.mapped = true → hostEvent (.setMapping table) s = .refused .mappingInstalledTwice) ∧
    (s.started = true → hostEvent (.setMapping table) s = .refused .mappingAfterStart)

/-- 70_reset_and_hazards.md R222: each of the events the host delivers after the start-up ends it, for good until a
Reset (log 6); a Reset begins another. -/
def Obligations.StepTickAndKeysEndTheStartUp : Prop :=
  (∀ (s t : State) (k : Nat), hostEvent .tick s = .next t ∨ hostEvent (.keyDown k) s = .next t ∨
    hostEvent (.keyUp k) s = .next t ∨ (s.run = .running ∧ hostEvent .step s = .next t) → t.started = true) ∧
  (∀ (s t : State) (e : HostEvent), s.started = true → e ≠ .reset → hostEvent e s = .next t → t.started = true) ∧
  ∀ (s t : State), hostEvent .reset s = .next t → t.started = false ∧ t.mapped = false

/-- 60_exceptions.md R198 (the spec's decision D26): a host key is the first slot that holds it, and what no slot holds
is ignored. That the table is a field of the state, and that nothing resolves before one is installed, is the model's
choice (log 7). -/
def Obligations.HostKeysResolveToTheFirstSlot : Prop :=
  (∀ (s : State) (table : KeyMap) (h : HostKeyId) (k : Nat), s.keyMap = some table → table[k]? = some h →
    (∀ j : Nat, j < k → table[j]? ≠ some h) →
    hostEvent (.hostKeyDown h) s = hostEvent (.keyDown k) s ∧ hostEvent (.hostKeyUp h) s = hostEvent (.keyUp k) s) ∧
  (∀ (s : State) (table : KeyMap) (h : HostKeyId), s.keyMap = some table → (∀ j : Nat, table[j]? ≠ some h) →
    hostEvent (.hostKeyDown h) s = .next s ∧ hostEvent (.hostKeyUp h) s = .next s) ∧
  ∀ (s : State) (h : HostKeyId), s.keyMap = none →
    hostEvent (.hostKeyDown h) s = .next s ∧ hostEvent (.hostKeyUp h) s = .next s

/-- 60_exceptions.md R200: the pixel query answers the pixel, and outside the display an error of its own. -/
def Obligations.PixelQueryIsBoundsChecked : Prop :=
  ∀ (s : State) (x y : Nat),
    (∀ (hx : x < 64) (hy : y < 32), s.isSet x y = some (pixel s.fb ⟨x, hx⟩ ⟨y, hy⟩)) ∧
    (64 ≤ x ∨ 32 ≤ y → s.isSet x y = none)

/-- 70_reset_and_hazards.md R224: byte j of an image goes to 0x200 + j; an image of more than 3584 bytes is refused.
That a load after the start-up is refused by a name of its own, and that a second load before is taken, is the model's
choice (log 6). -/
def Obligations.ProgramLoadStoresTheImage : Prop :=
  ∀ (s : State) (image : List Byte),
    (s.started = false → s.mem.wf = true → image.length ≤ 3584 → ∃ t, hostEvent (.load image) s = .next t ∧
      (∀ j b, image[j]? = some b → t.mem.read (0x200 + j) = b) ∧
      (∀ a, a < 0x200 ∨ 0x200 + image.length ≤ a → t.mem.read a = s.mem.read a) ∧ t = { s with mem := t.mem }) ∧
    (s.started = false → 3584 < image.length → hostEvent (.load image) s = .refused .romTooLarge) ∧
    (s.started = true → hostEvent (.load image) s = .refused .loadAfterStart)

/-- 60_exceptions.md R196: what the host may do to ST, in each mode; and R195. Which mode holds is left open; that the
pulse is refused in the other mode, and is allowed in every run state, is the model's choice (log 8). -/
def Obligations.SoundPulseFollowsTheMode : Prop :=
  ∀ s : State,
    (Config.soundTimerMode = .zeroAfterPulse → hostEvent .soundPulse s = .next { s with st := 0#8 }) ∧
    (Config.soundTimerMode = .countdown → hostEvent .soundPulse s = .refused .soundPulseInCountdownMode) ∧
    soundPulse .zeroAfterPulse s = .next { s with st := 0#8 } ∧
    soundPulse .countdown s = .refused .soundPulseInCountdownMode ∧ (s.soundActive = true ↔ s.st ≠ 0#8)

/-- 70_reset_and_hazards.md R220: Reset, in any run state, gives the block its reset state; the host's key map and
the model's own trace are no state of the block (log 7). -/
def Obligations.ResetEventGivesTheResetState : Prop :=
  ∀ s : State, hostEvent .reset s =
    .next { State.reset with keyMap := s.keyMap, draws := s.draws, diags := s.diags, schedule := s.schedule }

/-- 10_state.md R30, R31, 70_reset_and_hazards.md R221: the values after reset, which but for the font image are the
spec's own decisions D3, D5, D11 (log 1). -/
def Obligations.ResetStateHoldsTheTableOfR30 : Prop :=
  let s := State.reset
  (∀ x, s.getV x = 0#8) ∧ s.iReg = 0#16 ∧ s.dt = 0#8 ∧ s.st = 0#8 ∧ s.pc = 0x200#16 ∧ s.sp = 0#8 ∧
  (∀ (k : Nat) (t : Word), s.stack[k]? = some t → t = 0#16) ∧ (∀ px py, pixel s.fb px py = false) ∧
  (∀ (k : Nat) (p : Bool), s.key[k]? = some p → p = false) ∧ s.run = .running ∧ s.waitX = 0#4 ∧ s.fault = none ∧
  (List.range 80).map s.mem.read =
    [0xF0, 0x90, 0x90, 0x90, 0xF0,  0x20, 0x60, 0x20, 0x20, 0x70,  0xF0, 0x10, 0xF0, 0x80, 0xF0,
     0xF0, 0x10, 0xF0, 0x10, 0xF0,  0x90, 0x90, 0xF0, 0x10, 0x10,  0xF0, 0x80, 0xF0, 0x10, 0xF0,
     0xF0, 0x80, 0xF0, 0x90, 0xF0,  0xF0, 0x10, 0x20, 0x40, 0x40,  0xF0, 0x90, 0xF0, 0x90, 0xF0,
     0xF0, 0x90, 0xF0, 0x10, 0xF0,  0xF0, 0x90, 0xF0, 0x90, 0x90,  0xE0, 0x90, 0xE0, 0x90, 0xE0,
     0xF0, 0x80, 0x80, 0x80, 0xF0,  0xE0, 0x90, 0x90, 0x90, 0xE0,  0xF0, 0x80, 0xF0, 0x80, 0xF0,
     0xF0, 0x80, 0xF0, 0x80, 0x80] ∧
  ∀ a, 80 ≤ a → s.mem.read a = 0#8

/-! ## Invariants -/

/-- 10_state.md R28: the invariant holds right after reset. -/
def Obligations.InvariantHoldsAtReset : Prop := State.reset.Inv

/-- 10_state.md R16, R28: SP at most 16, pc at most 0x10FE, return addresses at most 0x1000, memory in canonical form,
FAULT recorded exactly in FAULTED and never with code 4 or 5, and a held core past its start-up (log 6); every step
keeps all of it, whatever the host does. -/
def Obligations.EveryStepKeepsTheInvariant : Prop :=
  ∀ s s' : State, s.Inv → step s = .next s' → s'.Inv

/-- The memory's canonical form is kept by every step from every state that has it. -/
def Obligations.EveryStepKeepsMemoryCanonical : Prop :=
  ∀ s s' : State, s.mem.wf = true → step s = .next s' → s'.mem.wf = true

/-- From a state with a legal SP no step stops in a fault of the model, and no instruction is ever refused. -/
def Obligations.LegalStatesNeverStop : Prop :=
  (∀ (s : State) (f : Fault), s.sp.toNat ≤ 16 → step s ≠ .fault f) ∧
  ∀ (i : Instr) (s : State) (q : Refusal), exec i s ≠ .refused q

/-! ## Whole-machine rules -/

/-- 60_exceptions.md R182, R183, R184, R190: only these eight instructions fault, each with one kind; the record
names the word and its address. Every other instruction completes in every state, and leaves RUN and FAULT alone but
for LD Vx,K, which begins to wait. -/
def Obligations.OnlyTheseInstructionsFault : Prop :=
  (∀ (i : Instr) (s : State), canFault i = false → ∃ t, exec i s = .next t ∧ t.fault = s.fault ∧
    ((∃ x, i = .ldVxK x) ∧ t.run = .waitKey ∨ (¬ ∃ x, i = .ldVxK x) ∧ t.run = s.run ∧ t.waitX = s.waitX)) ∧
  ∀ (i : Instr) (s t : State), canFault i = true → exec i s = .next t → t.waitX = s.waitX ∧
    ((t.run = s.run ∧ t.fault = s.fault) ∨
     (t.run = .faulted ∧ ∃ info, t.fault =
        some { kind := faultKindOf i, word := some (encode i), addr := s.pc - 2#16, info := info }))

/-- 60_exceptions.md R189, R193: in FAULTED no event but Reset changes RUN, FAULT, the pc, the registers, I, the stack,
the display or WAIT_X. Past the start-up, as every reachable FAULTED state is (`EveryStepKeepsTheInvariant`), nothing at
all changes but DT, ST and the key flags, by Tick, the key events and the sound pulse (log 8), and the schedule. -/
def Obligations.OnlyResetLeavesFaulted : Prop :=
  ∀ s t : State, s.run = .faulted → (∀ rest, s.schedule ≠ .reset :: rest) → step s = .next t →
    (t.run = .faulted ∧ t.fault = s.fault ∧ t.pc = s.pc ∧ t.v = s.v ∧ t.iReg = s.iReg ∧ t.sp = s.sp ∧
      t.stack = s.stack ∧ t.fb = s.fb ∧ t.waitX = s.waitX) ∧
    (s.started = true → t = { s with dt := t.dt, st := t.st, key := t.key, schedule := t.schedule })

/-- 10_state.md R10, R32: an instruction writes no general register but those the access table names for it; VF is
written as a flag by six instructions only. -/
def Obligations.RegistersOutsideTheDestinationsKeepTheirValue : Prop :=
  ∀ (i : Instr) (s t : State) (r : Nibble), exec i s = .next t → r ∉ destRegs i → t.getV r = s.getV r

/-- 42_index_memory.md R123, R124: only LD B,Vx and LD [I],Vx store, and only to the addresses they compute; every
other byte of memory reads as before, for all other instructions every byte. -/
def Obligations.MemoryOutsideTheStoredBytesIsUnchanged : Prop :=
  ∀ (i : Instr) (s t : State) (a : Nat), exec i s = .next t → a ∉ storedAddrs s i → t.mem.read a = s.mem.read a

/-- 10_state.md R15: only the ten transfers change the pc in execution, the skips by 2 or not at all. -/
def Obligations.OnlyTransfersChangeThePc : Prop :=
  (∀ (i : Instr) (s t : State), isTransfer i = false → exec i s = .next t → t.pc = s.pc) ∧
  ∀ (s t : State) (x y ign : Nibble) (kk : Byte),
    (exec (.seImm x kk) s = .next t ∨ exec (.sneImm x kk) s = .next t ∨ exec (.seReg x y ign) s = .next t ∨
      exec (.sneReg x y ign) s = .next t ∨ exec (.skp x) s = .next t ∨ exec (.sknp x) s = .next t) →
    t.pc = s.pc ∨ t.pc = s.pc + 2#16

/-- 10_state.md R12, R17, R18; 42_index_memory.md R127: I is written by three instructions, SP and the stack by
CALL and RET; every other instruction leaves them alone. -/
def Obligations.IAndTheStackHaveFewWriters : Prop :=
  ∀ (i : Instr) (s t : State), exec i s = .next t →
    (t.iReg = s.iReg ∨ (∃ nnn, i = .ldI nnn) ∨ (∃ x, i = .addI x) ∨ ∃ x, i = .ldF x) ∧
    ((t.sp = s.sp ∧ t.stack = s.stack) ∨ (i = .ret ∧ t.stack = s.stack) ∨ ∃ nnn, i = .call nnn)

/-- 10_state.md R13, R14, R22, R23: DT is written by LD DT,Vx, ST by LD ST,Vx, the display by CLS and DRW, the key
flags by no instruction. -/
def Obligations.TimersDisplayAndKeysHaveFewWriters : Prop :=
  ∀ (i : Instr) (s t : State), exec i s = .next t →
    (t.dt = s.dt ∨ ∃ x, i = .ldDtVx x) ∧ (t.st = s.st ∨ ∃ x, i = .ldStVx x) ∧
    (t.fb = s.fb ∨ i = .cls ∨ ∃ x y n, i = .drw x y n) ∧ t.key = s.key

/-- The fields that are not the block's state: no instruction touches them, but RND counts its draw (log 2). -/
def Obligations.InstructionsLeaveTheHostSideAlone : Prop :=
  ∀ (i : Instr) (s t : State), exec i s = .next t →
    t.keyMap = s.keyMap ∧ t.diags = s.diags ∧ t.mapped = s.mapped ∧ t.started = s.started ∧
    t.schedule = s.schedule ∧
    (t.draws = s.draws ∨ ∃ x kk, i = .rnd x kk)

/-- 60_exceptions.md R196: no instruction reads ST, so two machines that differ in ST alone step alike and differ in
ST alone afterwards, whatever the host does and in both sound modes. -/
def Obligations.NothingButSoundDependsOnST : Prop :=
  ∀ (s s' : State) (n : Byte), step s = .next s' → ∃ m, step { s with st := n } = .next { s' with st := m }
end

