-- ==== Sys2Proof/Laws/Blit.lean ====
section
/-! SUPPORT. The blit engine: the pixels a sprite hits are distinct, so the loop of 43_display.md R142 toggles each
of them once, and the collision says whether one of them was set before (R144, R147). -/

namespace Sys2Proof.Machine

/-- A place of the display. -/
abbrev Place := Fin 64 × Fin 32

/-! ## Toggling a list of places -/

theorem pixel_togglePixel (fb : Display) (p q : Place) :
    pixel (togglePixel fb p.1 p.2) q.1 q.2 = if p = q then !pixel fb q.1 q.2 else pixel fb q.1 q.2 := by
  obtain ⟨px, py⟩ := p
  obtain ⟨qx, qy⟩ := q
  simp only [pixel, togglePixel, Fin.getElem_fin, Vector.getElem_set, Prod.mk.injEq, Fin.ext_iff]
  by_cases hy : (py : Nat) = qy
  · by_cases hx : (px : Nat) = qx
    · simp [hx, hy]
    · simp [hx, hy]
  · simp [hy]

/-- Note a collision where the place is set, and toggle it. -/
def hit (acc : Blit) (p : Place) : Blit := (togglePixel acc.1 p.1 p.2, acc.2 || pixel acc.1 p.1 p.2)

/-- Distinct places: each is toggled once, and a collision is one that was set before. -/
theorem foldl_hit : ∀ (ps : List Place) (acc : Blit), ps.Nodup →
    (∀ q : Place, pixel (ps.foldl hit acc).1 q.1 q.2 = true ↔ (pixel acc.1 q.1 q.2 = true ↔ q ∉ ps)) ∧
      ((ps.foldl hit acc).2 = true ↔ acc.2 = true ∨ ∃ q ∈ ps, pixel acc.1 q.1 q.2 = true)
  | [], acc, _ => by simp
  | p :: ps, acc, h => by
    obtain ⟨hp, hps⟩ := List.nodup_cons.mp h
    obtain ⟨ih1, ih2⟩ := foldl_hit ps (hit acc p) hps
    refine ⟨fun q => ?_, ?_⟩
    · rw [List.foldl_cons, ih1 q]
      simp only [hit, pixel_togglePixel, List.mem_cons]
      by_cases e : p = q
      · subst e; simp [hp]
      · have e' : q ≠ p := fun h => e h.symm
        simp [e, e']
    · rw [List.foldl_cons, ih2]
      have hne : ∀ q ∈ ps, p ≠ q := fun q hq e => hp (e ▸ hq)
      simp only [hit, pixel_togglePixel, Bool.or_eq_true, List.mem_cons, exists_eq_or_imp, or_assoc]
      refine or_congr_right (or_congr_right (exists_congr fun q => and_congr_right fun hq => ?_))
      rw [if_neg (hne q hq)]

/-! ## The places of a sprite -/

/-- The place of column c of row r. -/
def place (x0 y0 r c : Nat) : Place := (spriteColumn x0 c, spriteRow y0 r)

/-- The places a sprite row hits. -/
def rowHits (x0 y0 r : Nat) (row : Byte) : List Place :=
  ((List.range 8).filter fun c => spriteBit row c).map (place x0 y0 r)

/-- The places a sprite hits from row number r on. -/
def spriteHits (x0 y0 : Nat) : Nat → List Byte → List Place
  | _, [] => []
  | r, row :: rows => rowHits x0 y0 r row ++ spriteHits x0 y0 (r + 1) rows

theorem foldl_drawBit (x0 y0 r : Nat) (row : Byte) : ∀ (cs : List Nat) (acc : Blit),
    cs.foldl (drawBit x0 y0 r row) acc =
      ((cs.filter fun c => spriteBit row c).map (place x0 y0 r)).foldl hit acc
  | [], _ => rfl
  | c :: cs, acc => by
    rw [List.foldl_cons, foldl_drawBit x0 y0 r row cs, List.filter_cons]
    by_cases h : spriteBit row c = true
    · simp only [h, drawBit, if_true, List.map_cons, List.foldl_cons]
      rfl
    · simp only [h, drawBit, if_false, Bool.false_eq_true]

theorem drawRows_eq (x0 y0 : Nat) : ∀ (r : Nat) (rows : List Byte) (acc : Blit),
    drawRows x0 y0 r rows acc = (spriteHits x0 y0 r rows).foldl hit acc
  | _, [], _ => rfl
  | r, row :: rows, acc => by
    rw [drawRows, drawRows_eq x0 y0 (r + 1) rows, spriteHits, List.foldl_append, drawRow, foldl_drawBit, rowHits]

theorem mem_rowHits {x0 y0 r : Nat} {row : Byte} {q : Place} :
    q ∈ rowHits x0 y0 r row ↔ ∃ c, c < 8 ∧ spriteBit row c = true ∧ place x0 y0 r c = q := by
  simp [rowHits, and_assoc]

theorem mem_spriteHits {x0 y0 : Nat} {q : Place} : ∀ {r : Nat} {rows : List Byte},
    q ∈ spriteHits x0 y0 r rows ↔
      ∃ j row c, rows[j]? = some row ∧ c < 8 ∧ spriteBit row c = true ∧ place x0 y0 (r + j) c = q
  | _, [] => by simp [spriteHits]
  | r, row :: rows => by
    rw [spriteHits, List.mem_append, mem_rowHits, mem_spriteHits]
    constructor
    · rintro (⟨c, h⟩ | ⟨j, row', c, h1, h2⟩)
      · exact ⟨0, row, c, rfl, h⟩
      · exact ⟨j + 1, row', c, h1, by rw [← Nat.add_assoc, Nat.add_right_comm]; exact h2⟩
    · rintro ⟨_ | j, row', c, h1, h2⟩
      · rw [List.getElem?_cons_zero, Option.some.injEq] at h1
        subst h1
        exact .inl ⟨c, h2⟩
      · exact .inr ⟨j, row', c, h1, by rw [← Nat.add_assoc, Nat.add_right_comm] at h2; exact h2⟩

theorem spriteColumn_inj {x0 c d : Nat} (hc : c < 8) (hd : d < 8) (h : spriteColumn x0 c = spriteColumn x0 d) :
    c = d := by
  have := congrArg Fin.val h
  simp only [spriteColumn, Fin.val_ofNat] at this
  omega

theorem spriteRow_inj {y0 r j k : Nat} (hj : j < 32) (hk : k < 32)
    (h : spriteRow y0 (r + j) = spriteRow y0 (r + k)) : j = k := by
  have := congrArg Fin.val h
  simp only [spriteRow, Fin.val_ofNat] at this
  omega

theorem nodup_rowHits (x0 y0 r : Nat) (row : Byte) : (rowHits x0 y0 r row).Nodup := by
  refine List.Nodup.map_on (fun c hc d hd h => ?_) (List.nodup_range.filter _)
  simp only [List.mem_filter, List.mem_range] at hc hd
  exact spriteColumn_inj hc.1 hd.1 (congrArg Prod.fst h)

/-- At most 32 rows hit distinct places (43_display.md R147). -/
theorem nodup_spriteHits (x0 y0 : Nat) : ∀ (r : Nat) (rows : List Byte), rows.length ≤ 32 →
    (spriteHits x0 y0 r rows).Nodup
  | _, [], _ => List.nodup_nil
  | r, row :: rows, h => by
    simp only [List.length_cons] at h
    refine List.nodup_append.mpr ⟨nodup_rowHits .., nodup_spriteHits x0 y0 (r + 1) rows (by omega), ?_⟩
    rintro p hp q hq rfl
    obtain ⟨c, -, -, hc⟩ := mem_rowHits.mp hp
    obtain ⟨j, row', d, hj, -, -, hd⟩ := mem_spriteHits.mp hq
    have hlen : j < rows.length := (List.getElem?_eq_some_iff.mp hj).1
    have hrow : spriteRow y0 (r + 0) = spriteRow y0 (r + (1 + j)) := by
      have e := congrArg Prod.snd (hc.trans hd.symm)
      rw [← Nat.add_assoc]
      exact e
    have := spriteRow_inj (by omega) (by omega) hrow
    omega

/-! ## What `DrawSprite` answers -/

/-- The place q is under a 1 bit of the sprite. -/
def Covers (x0 y0 : Byte) (rows : List Byte) (q : Place) : Prop :=
  ∃ j row c, rows[j]? = some row ∧ c < 8 ∧ spriteBit row c = true ∧ place x0.toNat y0.toNat j c = q

/-- The blit of at most 32 rows: every pixel under a 1 bit is toggled, no other is, and the collision bit says
whether a pixel under a 1 bit was set (43_display.md R142, R144, R147). -/
theorem drawSprite_spec (x0 y0 : Byte) (rows : List Byte) (fb : Display) (h : rows.length ≤ 32) :
    (∀ q : Place, pixel (drawSprite x0 y0 rows fb).1 q.1 q.2 = true ↔
        (pixel fb q.1 q.2 = true ↔ ¬ Covers x0 y0 rows q)) ∧
      ((drawSprite x0 y0 rows fb).2 = true ↔ ∃ q, Covers x0 y0 rows q ∧ pixel fb q.1 q.2 = true) := by
  have hmem : ∀ q : Place, q ∈ spriteHits x0.toNat y0.toNat 0 rows ↔ Covers x0 y0 rows q := by
    intro q
    rw [mem_spriteHits]
    simp only [Covers, Nat.zero_add]
  obtain ⟨h1, h2⟩ := foldl_hit _ (fb, false) (nodup_spriteHits x0.toNat y0.toNat 0 rows h)
  simp only [hmem] at h1 h2
  rw [drawSprite, drawRows_eq]
  exact ⟨h1, by simpa using h2⟩

end Sys2Proof.Machine
end

