-- ==== Sys2Proof/Laws/Memory.lean ====
section
/-! SUPPORT. The memory: a read after a write, the canonical form kept by every operation, and that two
memories in canonical form that read alike are equal. -/

namespace Sys2Proof.Machine

@[simp] theorem Memory.read_nil (a : Nat) : Memory.read [] a = resetByte a := rfl

theorem Memory.read_cons (k : Nat) (c : Byte) (m : Memory) (a : Nat) :
    Memory.read ((k, c) :: m) a = if k = a then c else Memory.read m a := rfl

/-! ## The canonical form, read apart -/

theorem Memory.wfFrom_cons {lo k : Nat} {c : Byte} {m : Memory} :
    Memory.wfFrom lo ((k, c) :: m) = true ↔
      lo ≤ k ∧ k < 4096 ∧ c ≠ resetByte k ∧ Memory.wfFrom (k + 1) m = true := by
  simp [Memory.wfFrom, and_assoc]

theorem Memory.wfFrom_mono {lo hi : Nat} (h : lo ≤ hi) : ∀ {m : Memory}, Memory.wfFrom hi m = true →
    Memory.wfFrom lo m = true
  | [], _ => rfl
  | (k, c) :: m, hm => by
    rw [Memory.wfFrom_cons] at hm ⊢
    exact ⟨h.trans hm.1, hm.2⟩

/-- Below its first possible address a canonical memory lists nothing. -/
theorem Memory.read_below {a : Nat} : ∀ {lo : Nat} {m : Memory}, Memory.wfFrom lo m = true → a < lo →
    m.read a = resetByte a
  | _, [], _, _ => rfl
  | lo, (k, c) :: m, hm, ha => by
    obtain ⟨hk, -, -, hm⟩ := Memory.wfFrom_cons.mp hm
    rw [Memory.read_cons, if_neg (by omega), Memory.read_below hm (by omega)]

/-! ## One write -/

theorem Memory.read_put (a : Nat) (b : Byte) (m : Memory) (x : Nat) :
    (Memory.put a b m).read x =
      if b = resetByte a then m.read x else if a = x then b else m.read x := by
  unfold Memory.put
  split
  · rfl
  · exact Memory.read_cons ..

/-- A write leaves every other address alone. -/
theorem Memory.read_write_other {a x : Nat} (b : Byte) (h : x ≠ a) : ∀ m : Memory,
    (m.write a b).read x = m.read x
  | [] => by simp [Memory.write, Memory.read_put, h.symm]
  | (k, c) :: m => by
    unfold Memory.write
    split
    · simp [Memory.read_put, h.symm]
    · split
      · next hk => simp [Memory.read_put, Memory.read_cons, h.symm, ← hk]
      · simp only [Memory.read_cons, Memory.read_write_other b h m]

/-- Memory that lists nothing at a or below reads there as reset left it, also behind a put. -/
theorem Memory.read_put_same {a lo : Nat} (b : Byte) {m : Memory} (hm : Memory.wfFrom lo m = true) (h : a < lo) :
    (Memory.put a b m).read a = b := by
  rw [Memory.read_put]
  split
  · next hb => rw [Memory.read_below hm h, hb]
  · simp

/-- A read after a write of the same address gives the byte written. -/
theorem Memory.read_write_same {a : Nat} (b : Byte) : ∀ {lo : Nat} {m : Memory}, Memory.wfFrom lo m = true →
    (m.write a b).read a = b
  | _, [], _ => Memory.read_put_same (lo := a + 1) b (m := []) rfl (by omega)
  | _, (k, c) :: m, hm => by
    obtain ⟨-, hk, hc, hm⟩ := Memory.wfFrom_cons.mp hm
    unfold Memory.write
    split
    · next hlt => exact Memory.read_put_same (lo := k) b (Memory.wfFrom_cons.mpr ⟨le_refl k, hk, hc, hm⟩) hlt
    · split
      · next heq => exact Memory.read_put_same (lo := k + 1) b hm (by omega)
      · rw [Memory.read_cons, if_neg (by omega)]
        exact Memory.read_write_same b hm

theorem Memory.wfFrom_put {a lo : Nat} {b : Byte} {m : Memory} (hm : Memory.wfFrom (a + 1) m = true) (hlo : lo ≤ a)
    (ha : a < 4096) : Memory.wfFrom lo (Memory.put a b m) = true := by
  unfold Memory.put
  split
  · exact Memory.wfFrom_mono (by omega) hm
  · next hb => exact Memory.wfFrom_cons.mpr ⟨hlo, ha, hb, hm⟩

theorem Memory.wfFrom_write {a : Nat} {b : Byte} (ha : a < 4096) : ∀ {lo : Nat} {m : Memory},
    Memory.wfFrom lo m = true → lo ≤ a → Memory.wfFrom lo (m.write a b) = true
  | _, [], _, hlo => Memory.wfFrom_put rfl hlo ha
  | _, (k, c) :: m, hm, hlo => by
    obtain ⟨hk, hk', hc, hm⟩ := Memory.wfFrom_cons.mp hm
    unfold Memory.write
    split
    · exact Memory.wfFrom_put (Memory.wfFrom_cons.mpr ⟨by omega, hk', hc, hm⟩) hlo ha
    · split
      · next heq => subst heq; exact Memory.wfFrom_put hm hlo ha
      · exact Memory.wfFrom_cons.mpr ⟨hk, hk', hc, Memory.wfFrom_write ha hm (by omega)⟩

/-- A write inside the memory keeps the canonical form. -/
theorem Memory.wf_write {m : Memory} {a : Nat} (b : Byte) (hm : m.wf = true) (ha : a < 4096) :
    (m.write a b).wf = true := Memory.wfFrom_write ha hm (Nat.zero_le a)

/-- What a canonical memory reads as after a write. -/
theorem Memory.read_write {m : Memory} {a x : Nat} (b : Byte) (hm : m.wf = true) :
    (m.write a b).read x = if x = a then b else m.read x := by
  split
  · next h => subst h; exact Memory.read_write_same b hm
  · next h => exact Memory.read_write_other b h m

@[simp] theorem Memory.wf_nil : Memory.wf [] = true := rfl

/-! ## A program image -/

/-- Loading an image inside the memory keeps the canonical form. -/
theorem Memory.wf_writeImage : ∀ {m : Memory} {a : Nat} (bs : List Byte), m.wf = true →
    a + bs.length ≤ 4096 → (m.writeImage a bs).wf = true
  | _, _, [], hm, _ => hm
  | m, a, b :: bs, hm, h => by
    simp only [List.length_cons] at h
    exact Memory.wf_writeImage bs (Memory.wf_write b hm (by omega)) (by omega)

/-- An image touches no address below it. -/
theorem Memory.read_writeImage_below {x : Nat} : ∀ {m : Memory} {a : Nat} (bs : List Byte), x < a →
    (m.writeImage a bs).read x = m.read x
  | _, _, [], _ => rfl
  | m, a, b :: bs, h => by
    rw [Memory.writeImage, Memory.read_writeImage_below bs (by omega), Memory.read_write_other b (by omega)]

/-! ## Extensionality -/

/-- The head of a canonical memory is an address where it differs from what reset left. -/
theorem Memory.read_head {lo k : Nat} {c : Byte} {m : Memory} (h : Memory.wfFrom lo ((k, c) :: m) = true) :
    Memory.read ((k, c) :: m) k ≠ resetByte k := by
  obtain ⟨-, -, hc, -⟩ := Memory.wfFrom_cons.mp h
  simpa [Memory.read_cons] using hc

/-- Behind its head a canonical memory reads as its tail, and below it as reset left it. -/
theorem Memory.tail_agree {lo k : Nat} {c d : Byte} {m n : Memory} (hm : Memory.wfFrom lo ((k, c) :: m) = true)
    (hn : Memory.wfFrom lo ((k, d) :: n) = true)
    (h : ∀ a, Memory.read ((k, c) :: m) a = Memory.read ((k, d) :: n) a) (a : Nat) : m.read a = n.read a := by
  obtain ⟨-, -, -, hm⟩ := Memory.wfFrom_cons.mp hm
  obtain ⟨-, -, -, hn⟩ := Memory.wfFrom_cons.mp hn
  by_cases e : k = a
  · subst e; rw [Memory.read_below hm (by omega), Memory.read_below hn (by omega)]
  · simpa [Memory.read_cons, e] using h a

/-- Two memories in canonical form that read alike are the same data. -/
theorem Memory.ext_of_wfFrom : ∀ {lo : Nat} {m n : Memory}, Memory.wfFrom lo m = true →
    Memory.wfFrom lo n = true → (∀ a, m.read a = n.read a) → m = n
  | _, [], [], _, _, _ => rfl
  | _, [], (k, d) :: n, _, hn, h => absurd (h k).symm (Memory.read_head hn)
  | _, (k, c) :: m, [], hm, _, h => absurd (h k) (Memory.read_head hm)
  | lo, (k, c) :: m, (l, d) :: n, hm, hn, h => by
    have hm' := Memory.wfFrom_cons.mp hm
    have hn' := Memory.wfFrom_cons.mp hn
    have hkl : k = l := by
      rcases Nat.lt_trichotomy k l with hlt | heq | hgt
      · refine absurd (h k) fun e => Memory.read_head hm (e.trans ?_)
        exact Memory.read_below (lo := l) (Memory.wfFrom_cons.mpr ⟨le_refl l, hn'.2⟩) hlt
      · exact heq
      · refine absurd (h l).symm fun e => Memory.read_head hn (e.trans ?_)
        exact Memory.read_below (lo := k) (Memory.wfFrom_cons.mpr ⟨le_refl k, hm'.2⟩) hgt
    subst hkl
    have hcd : c = d := by simpa [Memory.read_cons] using h k
    subst hcd
    rw [Memory.ext_of_wfFrom hm'.2.2.2 hn'.2.2.2 (Memory.tail_agree hm hn h)]

/-- Two memories in canonical form that read alike are the same data. -/
theorem Memory.ext {m n : Memory} (hm : m.wf = true) (hn : n.wf = true) (h : ∀ a, m.read a = n.read a) : m = n :=
  Memory.ext_of_wfFrom hm hn h

end Sys2Proof.Machine
end

