-- ==== Sys2Proof/Laws/Ops.lean ====
section
/-! SUPPORT. For each shared operation, once, everything it can answer. -/

namespace Sys2Proof.Machine

/-! ## Results -/

@[simp] theorem Result.bind_ok {α β : Type} (a : α) (s : State) (k : α → State → Result β) :
    (Result.ok a s).bind k = k a s := rfl

@[simp] theorem Result.bind_raise {α β : Type} (e : ErrorKind) (n : Option Nat) (s : State)
    (k : α → State → Result β) : (Result.raise e n s).bind k = .raise e n s := rfl

@[simp] theorem Result.bind_stuck {α β : Type} (f : Fault) (k : α → State → Result β) :
    (Result.stuck f).bind k = .stuck f := rfl

@[simp] theorem finish_ok (w : Word) (s t : State) : finish w s (.ok () t) = .next t := rfl

@[simp] theorem finish_raise (w : Word) (s t : State) (e : ErrorKind) (n : Option Nat) :
    finish w s (.raise e n t) = .next (t.takeFault e (some w) s.instrAddr n) := rfl

@[simp] theorem finish_stuck (w : Word) (s : State) (f : Fault) : finish w s (.stuck f) = .fault f := rfl

/-- If an instruction ends in a next state, its parts went through, or one raised and the fault was taken. -/
theorem finish_next {w : Word} {s t : State} {r : Result Unit} (h : finish w s r = .next t) :
    r = .ok () t ∨ ∃ e n u, r = .raise e n u ∧ t = u.takeFault e (some w) s.instrAddr n := by
  cases r with
  | ok a u =>
    left
    simp only [finish, Host.Outcome.next.injEq] at h
    rw [h]
  | raise e n u =>
    simp only [finish, Host.Outcome.next.injEq] at h
    exact .inr ⟨e, n, u, rfl, h.symm⟩
  | stuck f => simp [finish] at h

/-- No instruction that ends so is refused. -/
theorem finish_ne_refused {w : Word} {s : State} {r : Result Unit} {q : Refusal} : finish w s r ≠ .refused q := by
  cases r <;> simp [finish]

/-! ## Memory access -/

theorem readByte_of_lt {a : Nat} (s : State) (h : a < 4096) : readByte a s = .ok (s.mem.read a) s := by
  simp only [readByte, if_pos h]

theorem readByte_of_ge {a : Nat} (s : State) (h : 4096 ≤ a) :
    readByte a s = .raise .outOfBounds (some a) s := by
  simp only [readByte, if_neg (Nat.not_lt.mpr h)]

theorem writeByte_of_lt {a : Nat} (b : Byte) (s : State) (h : a < 4096) :
    writeByte a b s = .ok () { s with mem := s.mem.write a b } := by
  simp only [writeByte, if_pos h]

theorem writeByte_of_ge {a : Nat} (b : Byte) (s : State) (h : 4096 ≤ a) :
    writeByte a b s = .raise .outOfBounds (some a) s := by
  simp only [writeByte, if_neg (Nat.not_lt.mpr h)]

/-- Reading consecutive bytes inside the memory gives them in order and changes nothing. -/
theorem readBytes_ok (base : Nat) (s : State) : ∀ {ks : List Nat}, (∀ k ∈ ks, base + k < 4096) →
    readBytes base ks s = .ok (ks.map fun k => s.mem.read (base + k)) s
  | [], _ => rfl
  | k :: ks, h => by
    have ih := readBytes_ok base s (ks := ks) fun j hj => h j (List.mem_cons_of_mem k hj)
    simp only [readBytes, readByte_of_lt s (h k List.mem_cons_self), Result.bind_ok, ih, List.map_cons]

/-- Reading changes no state, whatever it answers; a raise names the first address outside the memory. -/
theorem readBytes_cases (base : Nat) (s : State) : ∀ ks : List Nat,
    (∃ bs, readBytes base ks s = .ok bs s) ∨ ∃ a, 4096 ≤ a ∧ readBytes base ks s = .raise .outOfBounds (some a) s
  | [] => .inl ⟨[], rfl⟩
  | k :: ks => by
    by_cases h : base + k < 4096
    · rcases readBytes_cases base s ks with ⟨bs, e⟩ | ⟨a, ha, e⟩
      · exact .inl ⟨_, by simp [readBytes, readByte_of_lt s h, e]; rfl⟩
      · exact .inr ⟨a, ha, by simp [readBytes, readByte_of_lt s h, e]⟩
    · exact .inr ⟨_, Nat.not_lt.mp h, by simp [readBytes, readByte_of_ge s (Nat.not_lt.mp h)]⟩

/-- Consecutive reads that leave the memory raise at its first address, or at once where they begin outside. -/
theorem readBytes_raise (base : Nat) (s : State) : ∀ (n k : Nat), 0 < n → 4096 < base + (k + n) →
    readBytes base (List.range' k n) s = .raise .outOfBounds (some (max 4096 (base + k))) s
  | n + 1, k, _, h => by
    by_cases hk : base + k < 4096
    · have ih := readBytes_raise base s n (k + 1) (by omega) (by omega)
      rw [List.range'_succ, readBytes, readByte_of_lt s hk, Result.bind_ok, ih, Result.bind_raise]
      congr 2
      omega
    · rw [List.range'_succ, readBytes, readByte_of_ge s (by omega), Result.bind_raise]
      congr 2
      omega

/-! ## Call stack -/

theorem push_of_lt (t : Word) {s : State} (h : s.sp.toNat < 16) :
    push t s = .ok () { s with stack := s.stack.set s.sp.toNat t h, sp := s.sp + 1#8 } := by
  have h' : s.sp.toNat ≠ Config.stackDepth := Nat.ne_of_lt h
  simp only [push, if_neg h', dif_pos h]

theorem push_of_eq (t : Word) {s : State} (h : s.sp.toNat = 16) : push t s = .raise .stackOverflow none s := by
  simp only [push, h, if_pos]

theorem push_of_gt (t : Word) {s : State} (h : 16 < s.sp.toNat) : push t s = .stuck .stackPointerOutOfRange := by
  have h1 : s.sp.toNat ≠ Config.stackDepth := Nat.ne_of_gt h
  have h2 : ¬ s.sp.toNat < Config.stackDepth := Nat.not_lt.mpr (Nat.le_of_lt h)
  simp only [push, if_neg h1, dif_neg h2]

theorem pop_of_zero {s : State} (h : s.sp.toNat = 0) : pop s = .raise .stackUnderflow none s := by
  simp only [pop, if_pos h]

theorem pop_of_le {s : State} (h0 : s.sp.toNat ≠ 0) (h : s.sp.toNat - 1 < 16) :
    pop s = .ok (s.stack[s.sp.toNat - 1]'h) { s with sp := s.sp - 1#8 } := by
  simp only [pop, if_neg h0, dif_pos h]

theorem pop_of_gt {s : State} (h : 16 < s.sp.toNat) : pop s = .stuck .stackPointerOutOfRange := by
  have h1 : s.sp.toNat ≠ 0 := by omega
  have h2 : ¬ s.sp.toNat - 1 < Config.stackDepth := by show ¬ s.sp.toNat - 1 < 16; omega
  simp only [pop, if_neg h1, dif_neg h2]

/-! ## Keys -/

theorem isPressed_of_lt {k : Byte} (s : State) (h : k.toNat < 16) : isPressed k s = .ok (s.key[k.toNat]'h) s := by
  simp only [isPressed, dif_pos h]

theorem isPressed_of_ge {k : Byte} (s : State) (h : 16 ≤ k.toNat) :
    isPressed k s = .raise .outOfBounds (some k.toNat) s := by
  simp only [isPressed, dif_neg (Nat.not_lt.mpr h)]

/-- Asking for a key changes no state. -/
theorem isPressed_cases (k : Byte) (s : State) :
    (∃ p, isPressed k s = .ok p s) ∨ isPressed k s = .raise .outOfBounds (some k.toNat) s := by
  by_cases h : k.toNat < 16
  · exact .inl ⟨_, isPressed_of_lt s h⟩
  · exact .inr (isPressed_of_ge s (Nat.not_lt.mp h))

/-! ## Fetch -/

theorem readWord_of_lt {a : Nat} (s : State) (h : a + 1 < 4096) :
    readWord a s = .ok (Decode.wordOfBytes (s.mem.read a) (s.mem.read (a + 1))) s := by
  simp only [readWord, readByte_of_lt s (Nat.lt_of_succ_lt h), readByte_of_lt s h, Result.bind_ok]

theorem readWord_of_ge {a : Nat} (s : State) (h : 4096 ≤ a + 1) :
    readWord a s = .raise .outOfBounds (some (max 4096 a)) s := by
  by_cases ha : a < 4096
  · have hm : max 4096 a = a + 1 := by omega
    simp only [readWord, readByte_of_lt s ha, readByte_of_ge s h, Result.bind_ok, Result.bind_raise, hm]
  · have hm : max 4096 a = a := by omega
    simp only [readWord, readByte_of_ge s (Nat.not_lt.mp ha), Result.bind_raise, hm]

end Sys2Proof.Machine
end

