-- ==== Sys2Proof/Laws/State.lean ====
section
/-! SUPPORT. One lemma per field per update, true by computation, so that no proof unfolds a record update. -/

namespace Sys2Proof.Machine

/-! ## V[x] <- b -/

@[simp] theorem State.setV_v (s : State) (x : Nibble) (b : Byte) : (s.setV x b).v = s.v.set x.toNat b x.isLt := rfl
@[simp] theorem State.setV_iReg (s : State) (x : Nibble) (b : Byte) : (s.setV x b).iReg = s.iReg := rfl
@[simp] theorem State.setV_dt (s : State) (x : Nibble) (b : Byte) : (s.setV x b).dt = s.dt := rfl
@[simp] theorem State.setV_st (s : State) (x : Nibble) (b : Byte) : (s.setV x b).st = s.st := rfl
@[simp] theorem State.setV_pc (s : State) (x : Nibble) (b : Byte) : (s.setV x b).pc = s.pc := rfl
@[simp] theorem State.setV_sp (s : State) (x : Nibble) (b : Byte) : (s.setV x b).sp = s.sp := rfl
@[simp] theorem State.setV_stack (s : State) (x : Nibble) (b : Byte) : (s.setV x b).stack = s.stack := rfl
@[simp] theorem State.setV_mem (s : State) (x : Nibble) (b : Byte) : (s.setV x b).mem = s.mem := rfl
@[simp] theorem State.setV_fb (s : State) (x : Nibble) (b : Byte) : (s.setV x b).fb = s.fb := rfl
@[simp] theorem State.setV_key (s : State) (x : Nibble) (b : Byte) : (s.setV x b).key = s.key := rfl
@[simp] theorem State.setV_run (s : State) (x : Nibble) (b : Byte) : (s.setV x b).run = s.run := rfl
@[simp] theorem State.setV_waitX (s : State) (x : Nibble) (b : Byte) : (s.setV x b).waitX = s.waitX := rfl
@[simp] theorem State.setV_fault (s : State) (x : Nibble) (b : Byte) : (s.setV x b).fault = s.fault := rfl
@[simp] theorem State.setV_keyMap (s : State) (x : Nibble) (b : Byte) : (s.setV x b).keyMap = s.keyMap := rfl
@[simp] theorem State.setV_draws (s : State) (x : Nibble) (b : Byte) : (s.setV x b).draws = s.draws := rfl
@[simp] theorem State.setV_diags (s : State) (x : Nibble) (b : Byte) : (s.setV x b).diags = s.diags := rfl
@[simp] theorem State.setV_mapped (s : State) (x : Nibble) (b : Byte) : (s.setV x b).mapped = s.mapped := rfl
@[simp] theorem State.setV_started (s : State) (x : Nibble) (b : Byte) : (s.setV x b).started = s.started := rfl
@[simp] theorem State.setV_schedule (s : State) (x : Nibble) (b : Byte) : (s.setV x b).schedule = s.schedule := rfl

/-! ## pc <- t -/

@[simp] theorem State.setPc_v (s : State) (t : Word) : (s.setPc t).v = s.v := rfl
@[simp] theorem State.setPc_iReg (s : State) (t : Word) : (s.setPc t).iReg = s.iReg := rfl
@[simp] theorem State.setPc_dt (s : State) (t : Word) : (s.setPc t).dt = s.dt := rfl
@[simp] theorem State.setPc_st (s : State) (t : Word) : (s.setPc t).st = s.st := rfl
@[simp] theorem State.setPc_pc (s : State) (t : Word) : (s.setPc t).pc = t := rfl
@[simp] theorem State.setPc_sp (s : State) (t : Word) : (s.setPc t).sp = s.sp := rfl
@[simp] theorem State.setPc_stack (s : State) (t : Word) : (s.setPc t).stack = s.stack := rfl
@[simp] theorem State.setPc_mem (s : State) (t : Word) : (s.setPc t).mem = s.mem := rfl
@[simp] theorem State.setPc_fb (s : State) (t : Word) : (s.setPc t).fb = s.fb := rfl
@[simp] theorem State.setPc_key (s : State) (t : Word) : (s.setPc t).key = s.key := rfl
@[simp] theorem State.setPc_run (s : State) (t : Word) : (s.setPc t).run = s.run := rfl
@[simp] theorem State.setPc_waitX (s : State) (t : Word) : (s.setPc t).waitX = s.waitX := rfl
@[simp] theorem State.setPc_fault (s : State) (t : Word) : (s.setPc t).fault = s.fault := rfl
@[simp] theorem State.setPc_keyMap (s : State) (t : Word) : (s.setPc t).keyMap = s.keyMap := rfl
@[simp] theorem State.setPc_draws (s : State) (t : Word) : (s.setPc t).draws = s.draws := rfl
@[simp] theorem State.setPc_diags (s : State) (t : Word) : (s.setPc t).diags = s.diags := rfl
@[simp] theorem State.setPc_mapped (s : State) (t : Word) : (s.setPc t).mapped = s.mapped := rfl
@[simp] theorem State.setPc_started (s : State) (t : Word) : (s.setPc t).started = s.started := rfl
@[simp] theorem State.setPc_schedule (s : State) (t : Word) : (s.setPc t).schedule = s.schedule := rfl

/-! ## The advance of the pc -/

@[simp] theorem State.advance_v (s : State) : (s.advance).v = s.v := rfl
@[simp] theorem State.advance_iReg (s : State) : (s.advance).iReg = s.iReg := rfl
@[simp] theorem State.advance_dt (s : State) : (s.advance).dt = s.dt := rfl
@[simp] theorem State.advance_st (s : State) : (s.advance).st = s.st := rfl
@[simp] theorem State.advance_pc (s : State) : (s.advance).pc = s.pc + 2#16 := rfl
@[simp] theorem State.advance_sp (s : State) : (s.advance).sp = s.sp := rfl
@[simp] theorem State.advance_stack (s : State) : (s.advance).stack = s.stack := rfl
@[simp] theorem State.advance_mem (s : State) : (s.advance).mem = s.mem := rfl
@[simp] theorem State.advance_fb (s : State) : (s.advance).fb = s.fb := rfl
@[simp] theorem State.advance_key (s : State) : (s.advance).key = s.key := rfl
@[simp] theorem State.advance_run (s : State) : (s.advance).run = s.run := rfl
@[simp] theorem State.advance_waitX (s : State) : (s.advance).waitX = s.waitX := rfl
@[simp] theorem State.advance_fault (s : State) : (s.advance).fault = s.fault := rfl
@[simp] theorem State.advance_keyMap (s : State) : (s.advance).keyMap = s.keyMap := rfl
@[simp] theorem State.advance_draws (s : State) : (s.advance).draws = s.draws := rfl
@[simp] theorem State.advance_diags (s : State) : (s.advance).diags = s.diags := rfl
@[simp] theorem State.advance_mapped (s : State) : (s.advance).mapped = s.mapped := rfl
@[simp] theorem State.advance_started (s : State) : (s.advance).started = s.started := rfl
@[simp] theorem State.advance_schedule (s : State) : (s.advance).schedule = s.schedule := rfl

/-! ## Taking a fault -/

@[simp] theorem State.takeFault_v (s : State) (k : ErrorKind) (w : Option Word) (a : Word) (n : Option Nat) :
    (s.takeFault k w a n).v = s.v := rfl
@[simp] theorem State.takeFault_iReg (s : State) (k : ErrorKind) (w : Option Word) (a : Word) (n : Option Nat) :
    (s.takeFault k w a n).iReg = s.iReg := rfl
@[simp] theorem State.takeFault_dt (s : State) (k : ErrorKind) (w : Option Word) (a : Word) (n : Option Nat) :
    (s.takeFault k w a n).dt = s.dt := rfl
@[simp] theorem State.takeFault_st (s : State) (k : ErrorKind) (w : Option Word) (a : Word) (n : Option Nat) :
    (s.takeFault k w a n).st = s.st := rfl
@[simp] theorem State.takeFault_pc (s : State) (k : ErrorKind) (w : Option Word) (a : Word) (n : Option Nat) :
    (s.takeFault k w a n).pc = s.pc := rfl
@[simp] theorem State.takeFault_sp (s : State) (k : ErrorKind) (w : Option Word) (a : Word) (n : Option Nat) :
    (s.takeFault k w a n).sp = s.sp := rfl
@[simp] theorem State.takeFault_stack (s : State) (k : ErrorKind) (w : Option Word) (a : Word) (n : Option Nat) :
    (s.takeFault k w a n).stack = s.stack := rfl
@[simp] theorem State.takeFault_mem (s : State) (k : ErrorKind) (w : Option Word) (a : Word) (n : Option Nat) :
    (s.takeFault k w a n).mem = s.mem := rfl
@[simp] theorem State.takeFault_fb (s : State) (k : ErrorKind) (w : Option Word) (a : Word) (n : Option Nat) :
    (s.takeFault k w a n).fb = s.fb := rfl
@[simp] theorem State.takeFault_key (s : State) (k : ErrorKind) (w : Option Word) (a : Word) (n : Option Nat) :
    (s.takeFault k w a n).key = s.key := rfl
@[simp] theorem State.takeFault_run (s : State) (k : ErrorKind) (w : Option Word) (a : Word) (n : Option Nat) :
    (s.takeFault k w a n).run = .faulted := rfl
@[simp] theorem State.takeFault_waitX (s : State) (k : ErrorKind) (w : Option Word) (a : Word) (n : Option Nat) :
    (s.takeFault k w a n).waitX = s.waitX := rfl
@[simp] theorem State.takeFault_fault (s : State) (k : ErrorKind) (w : Option Word) (a : Word) (n : Option Nat) :
    (s.takeFault k w a n).fault = some { kind := k, word := w, addr := a, info := n } := rfl
@[simp] theorem State.takeFault_keyMap (s : State) (k : ErrorKind) (w : Option Word) (a : Word) (n : Option Nat) :
    (s.takeFault k w a n).keyMap = s.keyMap := rfl
@[simp] theorem State.takeFault_draws (s : State) (k : ErrorKind) (w : Option Word) (a : Word) (n : Option Nat) :
    (s.takeFault k w a n).draws = s.draws := rfl
@[simp] theorem State.takeFault_diags (s : State) (k : ErrorKind) (w : Option Word) (a : Word) (n : Option Nat) :
    (s.takeFault k w a n).diags = s.diags := rfl
@[simp] theorem State.takeFault_mapped (s : State) (k : ErrorKind) (w : Option Word) (a : Word) (n : Option Nat) :
    (s.takeFault k w a n).mapped = s.mapped := rfl
@[simp] theorem State.takeFault_started (s : State) (k : ErrorKind) (w : Option Word) (a : Word) (n : Option Nat) :
    (s.takeFault k w a n).started = s.started := rfl
@[simp] theorem State.takeFault_schedule (s : State) (k : ErrorKind) (w : Option Word) (a : Word) (n : Option Nat) :
    (s.takeFault k w a n).schedule = s.schedule := rfl

/-! ## A flag, then a result -/

@[simp] theorem State.setFlagThenV_v (s : State) (c : Bool) (x : Nibble) (b : Byte) :
    (s.setFlagThenV c x b).v = (s.v.set vf.toNat (flagByte c) vf.isLt).set x.toNat b x.isLt := rfl
@[simp] theorem State.setFlagThenV_iReg (s : State) (c : Bool) (x : Nibble) (b : Byte) :
    (s.setFlagThenV c x b).iReg = s.iReg := rfl
@[simp] theorem State.setFlagThenV_dt (s : State) (c : Bool) (x : Nibble) (b : Byte) :
    (s.setFlagThenV c x b).dt = s.dt := rfl
@[simp] theorem State.setFlagThenV_st (s : State) (c : Bool) (x : Nibble) (b : Byte) :
    (s.setFlagThenV c x b).st = s.st := rfl
@[simp] theorem State.setFlagThenV_pc (s : State) (c : Bool) (x : Nibble) (b : Byte) :
    (s.setFlagThenV c x b).pc = s.pc := rfl
@[simp] theorem State.setFlagThenV_sp (s : State) (c : Bool) (x : Nibble) (b : Byte) :
    (s.setFlagThenV c x b).sp = s.sp := rfl
@[simp] theorem State.setFlagThenV_stack (s : State) (c : Bool) (x : Nibble) (b : Byte) :
    (s.setFlagThenV c x b).stack = s.stack := rfl
@[simp] theorem State.setFlagThenV_mem (s : State) (c : Bool) (x : Nibble) (b : Byte) :
    (s.setFlagThenV c x b).mem = s.mem := rfl
@[simp] theorem State.setFlagThenV_fb (s : State) (c : Bool) (x : Nibble) (b : Byte) :
    (s.setFlagThenV c x b).fb = s.fb := rfl
@[simp] theorem State.setFlagThenV_key (s : State) (c : Bool) (x : Nibble) (b : Byte) :
    (s.setFlagThenV c x b).key = s.key := rfl
@[simp] theorem State.setFlagThenV_run (s : State) (c : Bool) (x : Nibble) (b : Byte) :
    (s.setFlagThenV c x b).run = s.run := rfl
@[simp] theorem State.setFlagThenV_waitX (s : State) (c : Bool) (x : Nibble) (b : Byte) :
    (s.setFlagThenV c x b).waitX = s.waitX := rfl
@[simp] theorem State.setFlagThenV_fault (s : State) (c : Bool) (x : Nibble) (b : Byte) :
    (s.setFlagThenV c x b).fault = s.fault := rfl
@[simp] theorem State.setFlagThenV_keyMap (s : State) (c : Bool) (x : Nibble) (b : Byte) :
    (s.setFlagThenV c x b).keyMap = s.keyMap := rfl
@[simp] theorem State.setFlagThenV_draws (s : State) (c : Bool) (x : Nibble) (b : Byte) :
    (s.setFlagThenV c x b).draws = s.draws := rfl
@[simp] theorem State.setFlagThenV_diags (s : State) (c : Bool) (x : Nibble) (b : Byte) :
    (s.setFlagThenV c x b).diags = s.diags := rfl
@[simp] theorem State.setFlagThenV_mapped (s : State) (c : Bool) (x : Nibble) (b : Byte) :
    (s.setFlagThenV c x b).mapped = s.mapped := rfl
@[simp] theorem State.setFlagThenV_started (s : State) (c : Bool) (x : Nibble) (b : Byte) :
    (s.setFlagThenV c x b).started = s.started := rfl
@[simp] theorem State.setFlagThenV_schedule (s : State) (c : Bool) (x : Nibble) (b : Byte) :
    (s.setFlagThenV c x b).schedule = s.schedule := rfl

/-! ## A skip -/

@[simp] theorem State.skipIf_v (s : State) (c : Bool) : (s.skipIf c).v = s.v := by
  unfold State.skipIf; split <;> rfl
@[simp] theorem State.skipIf_iReg (s : State) (c : Bool) : (s.skipIf c).iReg = s.iReg := by
  unfold State.skipIf; split <;> rfl
@[simp] theorem State.skipIf_dt (s : State) (c : Bool) : (s.skipIf c).dt = s.dt := by
  unfold State.skipIf; split <;> rfl
@[simp] theorem State.skipIf_st (s : State) (c : Bool) : (s.skipIf c).st = s.st := by
  unfold State.skipIf; split <;> rfl
@[simp] theorem State.skipIf_sp (s : State) (c : Bool) : (s.skipIf c).sp = s.sp := by
  unfold State.skipIf; split <;> rfl
@[simp] theorem State.skipIf_stack (s : State) (c : Bool) : (s.skipIf c).stack = s.stack := by
  unfold State.skipIf; split <;> rfl
@[simp] theorem State.skipIf_mem (s : State) (c : Bool) : (s.skipIf c).mem = s.mem := by
  unfold State.skipIf; split <;> rfl
@[simp] theorem State.skipIf_fb (s : State) (c : Bool) : (s.skipIf c).fb = s.fb := by
  unfold State.skipIf; split <;> rfl
@[simp] theorem State.skipIf_key (s : State) (c : Bool) : (s.skipIf c).key = s.key := by
  unfold State.skipIf; split <;> rfl
@[simp] theorem State.skipIf_run (s : State) (c : Bool) : (s.skipIf c).run = s.run := by
  unfold State.skipIf; split <;> rfl
@[simp] theorem State.skipIf_waitX (s : State) (c : Bool) : (s.skipIf c).waitX = s.waitX := by
  unfold State.skipIf; split <;> rfl
@[simp] theorem State.skipIf_fault (s : State) (c : Bool) : (s.skipIf c).fault = s.fault := by
  unfold State.skipIf; split <;> rfl
@[simp] theorem State.skipIf_keyMap (s : State) (c : Bool) : (s.skipIf c).keyMap = s.keyMap := by
  unfold State.skipIf; split <;> rfl
@[simp] theorem State.skipIf_draws (s : State) (c : Bool) : (s.skipIf c).draws = s.draws := by
  unfold State.skipIf; split <;> rfl
@[simp] theorem State.skipIf_diags (s : State) (c : Bool) : (s.skipIf c).diags = s.diags := by
  unfold State.skipIf; split <;> rfl
@[simp] theorem State.skipIf_mapped (s : State) (c : Bool) : (s.skipIf c).mapped = s.mapped := by
  unfold State.skipIf; split <;> rfl
@[simp] theorem State.skipIf_started (s : State) (c : Bool) : (s.skipIf c).started = s.started := by
  unfold State.skipIf; split <;> rfl
@[simp] theorem State.skipIf_schedule (s : State) (c : Bool) : (s.skipIf c).schedule = s.schedule := by
  unfold State.skipIf; split <;> rfl

/-! ## A key flag -/

@[simp] theorem State.setKey_v (s : State) (k : Nat) (down : Bool) : (s.setKey k down).v = s.v := by
  unfold State.setKey; split <;> rfl
@[simp] theorem State.setKey_iReg (s : State) (k : Nat) (down : Bool) : (s.setKey k down).iReg = s.iReg := by
  unfold State.setKey; split <;> rfl
@[simp] theorem State.setKey_dt (s : State) (k : Nat) (down : Bool) : (s.setKey k down).dt = s.dt := by
  unfold State.setKey; split <;> rfl
@[simp] theorem State.setKey_st (s : State) (k : Nat) (down : Bool) : (s.setKey k down).st = s.st := by
  unfold State.setKey; split <;> rfl
@[simp] theorem State.setKey_pc (s : State) (k : Nat) (down : Bool) : (s.setKey k down).pc = s.pc := by
  unfold State.setKey; split <;> rfl
@[simp] theorem State.setKey_sp (s : State) (k : Nat) (down : Bool) : (s.setKey k down).sp = s.sp := by
  unfold State.setKey; split <;> rfl
@[simp] theorem State.setKey_stack (s : State) (k : Nat) (down : Bool) : (s.setKey k down).stack = s.stack := by
  unfold State.setKey; split <;> rfl
@[simp] theorem State.setKey_mem (s : State) (k : Nat) (down : Bool) : (s.setKey k down).mem = s.mem := by
  unfold State.setKey; split <;> rfl
@[simp] theorem State.setKey_fb (s : State) (k : Nat) (down : Bool) : (s.setKey k down).fb = s.fb := by
  unfold State.setKey; split <;> rfl
@[simp] theorem State.setKey_run (s : State) (k : Nat) (down : Bool) : (s.setKey k down).run = s.run := by
  unfold State.setKey; split <;> rfl
@[simp] theorem State.setKey_waitX (s : State) (k : Nat) (down : Bool) : (s.setKey k down).waitX = s.waitX := by
  unfold State.setKey; split <;> rfl
@[simp] theorem State.setKey_fault (s : State) (k : Nat) (down : Bool) : (s.setKey k down).fault = s.fault := by
  unfold State.setKey; split <;> rfl
@[simp] theorem State.setKey_keyMap (s : State) (k : Nat) (down : Bool) : (s.setKey k down).keyMap = s.keyMap := by
  unfold State.setKey; split <;> rfl
@[simp] theorem State.setKey_draws (s : State) (k : Nat) (down : Bool) : (s.setKey k down).draws = s.draws := by
  unfold State.setKey; split <;> rfl
@[simp] theorem State.setKey_diags (s : State) (k : Nat) (down : Bool) : (s.setKey k down).diags = s.diags := by
  unfold State.setKey; split <;> rfl
@[simp] theorem State.setKey_mapped (s : State) (k : Nat) (down : Bool) : (s.setKey k down).mapped = s.mapped := by
  unfold State.setKey; split <;> rfl
@[simp] theorem State.setKey_started (s : State) (k : Nat) (down : Bool) : (s.setKey k down).started = s.started := by
  unfold State.setKey; split <;> rfl
@[simp] theorem State.setKey_schedule (s : State) (k : Nat) (down : Bool) :
    (s.setKey k down).schedule = s.schedule := by
  unfold State.setKey; split <;> rfl

/-! ## The blit of DRW -/

@[simp] theorem blitRows_iReg (x0 y0 : Byte) (rows : List Byte) (s : State) :
    (blitRows x0 y0 rows s).iReg = s.iReg := rfl
@[simp] theorem blitRows_dt (x0 y0 : Byte) (rows : List Byte) (s : State) :
    (blitRows x0 y0 rows s).dt = s.dt := rfl
@[simp] theorem blitRows_st (x0 y0 : Byte) (rows : List Byte) (s : State) :
    (blitRows x0 y0 rows s).st = s.st := rfl
@[simp] theorem blitRows_pc (x0 y0 : Byte) (rows : List Byte) (s : State) :
    (blitRows x0 y0 rows s).pc = s.pc := rfl
@[simp] theorem blitRows_sp (x0 y0 : Byte) (rows : List Byte) (s : State) :
    (blitRows x0 y0 rows s).sp = s.sp := rfl
@[simp] theorem blitRows_stack (x0 y0 : Byte) (rows : List Byte) (s : State) :
    (blitRows x0 y0 rows s).stack = s.stack := rfl
@[simp] theorem blitRows_mem (x0 y0 : Byte) (rows : List Byte) (s : State) :
    (blitRows x0 y0 rows s).mem = s.mem := rfl
@[simp] theorem blitRows_key (x0 y0 : Byte) (rows : List Byte) (s : State) :
    (blitRows x0 y0 rows s).key = s.key := rfl
@[simp] theorem blitRows_run (x0 y0 : Byte) (rows : List Byte) (s : State) :
    (blitRows x0 y0 rows s).run = s.run := rfl
@[simp] theorem blitRows_waitX (x0 y0 : Byte) (rows : List Byte) (s : State) :
    (blitRows x0 y0 rows s).waitX = s.waitX := rfl
@[simp] theorem blitRows_fault (x0 y0 : Byte) (rows : List Byte) (s : State) :
    (blitRows x0 y0 rows s).fault = s.fault := rfl
@[simp] theorem blitRows_keyMap (x0 y0 : Byte) (rows : List Byte) (s : State) :
    (blitRows x0 y0 rows s).keyMap = s.keyMap := rfl
@[simp] theorem blitRows_draws (x0 y0 : Byte) (rows : List Byte) (s : State) :
    (blitRows x0 y0 rows s).draws = s.draws := rfl
@[simp] theorem blitRows_diags (x0 y0 : Byte) (rows : List Byte) (s : State) :
    (blitRows x0 y0 rows s).diags = s.diags := rfl
@[simp] theorem blitRows_mapped (x0 y0 : Byte) (rows : List Byte) (s : State) :
    (blitRows x0 y0 rows s).mapped = s.mapped := rfl
@[simp] theorem blitRows_started (x0 y0 : Byte) (rows : List Byte) (s : State) :
    (blitRows x0 y0 rows s).started = s.started := rfl
@[simp] theorem blitRows_schedule (x0 y0 : Byte) (rows : List Byte) (s : State) :
    (blitRows x0 y0 rows s).schedule = s.schedule := rfl
@[simp] theorem blitRows_fb (x0 y0 : Byte) (rows : List Byte) (s : State) :
    (blitRows x0 y0 rows s).fb = (drawSprite x0 y0 rows s.fb).1 := rfl

/-! ## Tick, key map, reset -/

@[simp] theorem State.tick_v (s : State) : (s.tick).v = s.v := rfl
@[simp] theorem State.tick_iReg (s : State) : (s.tick).iReg = s.iReg := rfl
@[simp] theorem State.tick_dt (s : State) : (s.tick).dt = countDown s.dt := rfl
@[simp] theorem State.tick_st (s : State) : (s.tick).st = countDown s.st := rfl
@[simp] theorem State.tick_pc (s : State) : (s.tick).pc = s.pc := rfl
@[simp] theorem State.tick_sp (s : State) : (s.tick).sp = s.sp := rfl
@[simp] theorem State.tick_stack (s : State) : (s.tick).stack = s.stack := rfl
@[simp] theorem State.tick_mem (s : State) : (s.tick).mem = s.mem := rfl
@[simp] theorem State.tick_fb (s : State) : (s.tick).fb = s.fb := rfl
@[simp] theorem State.tick_key (s : State) : (s.tick).key = s.key := rfl
@[simp] theorem State.tick_run (s : State) : (s.tick).run = s.run := rfl
@[simp] theorem State.tick_waitX (s : State) : (s.tick).waitX = s.waitX := rfl
@[simp] theorem State.tick_fault (s : State) : (s.tick).fault = s.fault := rfl
@[simp] theorem State.tick_keyMap (s : State) : (s.tick).keyMap = s.keyMap := rfl
@[simp] theorem State.tick_draws (s : State) : (s.tick).draws = s.draws := rfl
@[simp] theorem State.tick_diags (s : State) : (s.tick).diags = s.diags := rfl
@[simp] theorem State.tick_mapped (s : State) : (s.tick).mapped = s.mapped := rfl
@[simp] theorem State.tick_started (s : State) : (s.tick).started = s.started := rfl
@[simp] theorem State.tick_schedule (s : State) : (s.tick).schedule = s.schedule := rfl

@[simp] theorem State.setMapping_v (s : State) (table : KeyMap) : (s.setMapping table).v = s.v := rfl
@[simp] theorem State.setMapping_iReg (s : State) (table : KeyMap) : (s.setMapping table).iReg = s.iReg := rfl
@[simp] theorem State.setMapping_dt (s : State) (table : KeyMap) : (s.setMapping table).dt = s.dt := rfl
@[simp] theorem State.setMapping_st (s : State) (table : KeyMap) : (s.setMapping table).st = s.st := rfl
@[simp] theorem State.setMapping_pc (s : State) (table : KeyMap) : (s.setMapping table).pc = s.pc := rfl
@[simp] theorem State.setMapping_sp (s : State) (table : KeyMap) : (s.setMapping table).sp = s.sp := rfl
@[simp] theorem State.setMapping_stack (s : State) (table : KeyMap) : (s.setMapping table).stack = s.stack := rfl
@[simp] theorem State.setMapping_mem (s : State) (table : KeyMap) : (s.setMapping table).mem = s.mem := rfl
@[simp] theorem State.setMapping_fb (s : State) (table : KeyMap) : (s.setMapping table).fb = s.fb := rfl
@[simp] theorem State.setMapping_key (s : State) (table : KeyMap) : (s.setMapping table).key = s.key := rfl
@[simp] theorem State.setMapping_run (s : State) (table : KeyMap) : (s.setMapping table).run = s.run := rfl
@[simp] theorem State.setMapping_waitX (s : State) (table : KeyMap) : (s.setMapping table).waitX = s.waitX := rfl
@[simp] theorem State.setMapping_fault (s : State) (table : KeyMap) : (s.setMapping table).fault = s.fault := rfl
@[simp] theorem State.setMapping_keyMap (s : State) (table : KeyMap) : (s.setMapping table).keyMap = some table := rfl
@[simp] theorem State.setMapping_draws (s : State) (table : KeyMap) : (s.setMapping table).draws = s.draws := rfl
@[simp] theorem State.setMapping_diags (s : State) (table : KeyMap) : (s.setMapping table).diags = s.diags := rfl
@[simp] theorem State.setMapping_mapped (s : State) (table : KeyMap) :
    (s.setMapping table).mapped = true := rfl
@[simp] theorem State.setMapping_started (s : State) (table : KeyMap) :
    (s.setMapping table).started = s.started := rfl
@[simp] theorem State.setMapping_schedule (s : State) (table : KeyMap) :
    (s.setMapping table).schedule = s.schedule := rfl

@[simp] theorem State.applyReset_v (s : State) : (s.applyReset).v = State.reset.v := rfl
@[simp] theorem State.applyReset_iReg (s : State) : (s.applyReset).iReg = State.reset.iReg := rfl
@[simp] theorem State.applyReset_dt (s : State) : (s.applyReset).dt = State.reset.dt := rfl
@[simp] theorem State.applyReset_st (s : State) : (s.applyReset).st = State.reset.st := rfl
@[simp] theorem State.applyReset_pc (s : State) : (s.applyReset).pc = State.reset.pc := rfl
@[simp] theorem State.applyReset_sp (s : State) : (s.applyReset).sp = State.reset.sp := rfl
@[simp] theorem State.applyReset_stack (s : State) : (s.applyReset).stack = State.reset.stack := rfl
@[simp] theorem State.applyReset_mem (s : State) : (s.applyReset).mem = State.reset.mem := rfl
@[simp] theorem State.applyReset_fb (s : State) : (s.applyReset).fb = State.reset.fb := rfl
@[simp] theorem State.applyReset_key (s : State) : (s.applyReset).key = State.reset.key := rfl
@[simp] theorem State.applyReset_run (s : State) : (s.applyReset).run = State.reset.run := rfl
@[simp] theorem State.applyReset_waitX (s : State) : (s.applyReset).waitX = State.reset.waitX := rfl
@[simp] theorem State.applyReset_fault (s : State) : (s.applyReset).fault = State.reset.fault := rfl
@[simp] theorem State.applyReset_keyMap (s : State) : (s.applyReset).keyMap = s.keyMap := rfl
@[simp] theorem State.applyReset_draws (s : State) : (s.applyReset).draws = s.draws := rfl
@[simp] theorem State.applyReset_diags (s : State) : (s.applyReset).diags = s.diags := rfl
@[simp] theorem State.applyReset_mapped (s : State) : (s.applyReset).mapped = State.reset.mapped := rfl
@[simp] theorem State.applyReset_started (s : State) : (s.applyReset).started = State.reset.started := rfl
@[simp] theorem State.applyReset_schedule (s : State) : (s.applyReset).schedule = s.schedule := rfl

/-! ## The end of the start-up -/

@[simp] theorem State.start_v (s : State) : (s.start).v = s.v := rfl
@[simp] theorem State.start_iReg (s : State) : (s.start).iReg = s.iReg := rfl
@[simp] theorem State.start_dt (s : State) : (s.start).dt = s.dt := rfl
@[simp] theorem State.start_st (s : State) : (s.start).st = s.st := rfl
@[simp] theorem State.start_pc (s : State) : (s.start).pc = s.pc := rfl
@[simp] theorem State.start_sp (s : State) : (s.start).sp = s.sp := rfl
@[simp] theorem State.start_stack (s : State) : (s.start).stack = s.stack := rfl
@[simp] theorem State.start_mem (s : State) : (s.start).mem = s.mem := rfl
@[simp] theorem State.start_fb (s : State) : (s.start).fb = s.fb := rfl
@[simp] theorem State.start_key (s : State) : (s.start).key = s.key := rfl
@[simp] theorem State.start_run (s : State) : (s.start).run = s.run := rfl
@[simp] theorem State.start_waitX (s : State) : (s.start).waitX = s.waitX := rfl
@[simp] theorem State.start_fault (s : State) : (s.start).fault = s.fault := rfl
@[simp] theorem State.start_keyMap (s : State) : (s.start).keyMap = s.keyMap := rfl
@[simp] theorem State.start_draws (s : State) : (s.start).draws = s.draws := rfl
@[simp] theorem State.start_diags (s : State) : (s.start).diags = s.diags := rfl
@[simp] theorem State.start_mapped (s : State) : (s.start).mapped = s.mapped := rfl
@[simp] theorem State.start_started (s : State) : (s.start).started = true := rfl
@[simp] theorem State.start_schedule (s : State) : (s.start).schedule = s.schedule := rfl

/-- The end of the start-up ends it once. -/
theorem State.start_of_started {s : State} (h : s.started = true) : s.start = s := by
  rw [State.start, ← h]

/-! ## Reading a register after a write -/

@[simp] theorem State.getV_setV_same (s : State) (x : Nibble) (b : Byte) : (s.setV x b).getV x = b := by
  simp [State.getV, State.setV]

theorem State.getV_setV_other (s : State) {x r : Nibble} (b : Byte) (h : r ≠ x) :
    (s.setV x b).getV r = s.getV r := by
  have hn : x.toNat ≠ r.toNat := fun e => h (BitVec.eq_of_toNat_eq e.symm)
  simp [State.getV, State.setV, hn]

theorem State.getV_setV (s : State) (x r : Nibble) (b : Byte) :
    (s.setV x b).getV r = if r = x then b else s.getV r := by
  split
  · next h => subst h; simp
  · next h => exact s.getV_setV_other b h

/-- Two states that hold the same registers answer the same reads. -/
theorem State.getV_congr {s t : State} (h : s.v = t.v) (x : Nibble) : s.getV x = t.getV x := by
  simp [State.getV, h]

theorem State.getV_setFlagThenV (s : State) (c : Bool) (x r : Nibble) (b : Byte) :
    (s.setFlagThenV c x b).getV r = if r = x then b else if r = vf then flagByte c else s.getV r := by
  simp only [State.setFlagThenV, State.getV_setV]

/-- A register write changes the registers and nothing else. -/
theorem State.setV_eq (s : State) (x : Nibble) (b : Byte) : s.setV x b = { s with v := (s.setV x b).v } := rfl

/-- A flagged write changes the registers and nothing else. -/
theorem State.setFlagThenV_eq (s : State) (c : Bool) (x : Nibble) (b : Byte) :
    s.setFlagThenV c x b = { s with v := (s.setFlagThenV c x b).v } := rfl

/-! ## Skips and keys -/

@[simp] theorem State.skipIf_true (s : State) : s.skipIf true = { s with pc := s.pc + 2#16 } := rfl

@[simp] theorem State.skipIf_false (s : State) : s.skipIf false = s := rfl

theorem State.setKey_of_lt (s : State) {k : Nat} (down : Bool) (h : k < 16) :
    s.setKey k down = { s with key := s.key.set k down h } := by
  simp [State.setKey, h]

theorem State.setKey_of_ge (s : State) {k : Nat} (down : Bool) (h : 16 ≤ k) : s.setKey k down = s := by
  simp [State.setKey, Nat.not_lt.mpr h]

end Sys2Proof.Machine
end

