-- ==== Sys2Proof/Laws/Block.lean ====
section
/-! SUPPORT. The block store and the block load over a run of consecutive registers (42_index_memory.md R124,
R125): what they leave where they go through, and where they leave the memory. -/

namespace Sys2Proof.Machine

/-- The number of a register of the list 0..15 is its index. -/
theorem toNat_regOf {k : Nat} (h : k < 16) : (regOf k).toNat = k := by
  simp only [regOf, BitVec.toNat_ofNat]
  omega

theorem regOf_toNat (x : Nibble) : regOf x.toNat = x := by
  simp [regOf]

/-- A register of `V0..Vx` is one whose number is at most x. -/
theorem mem_regsUpTo {x : Nibble} {k : Nat} : k ∈ regsUpTo x ↔ k ≤ x.toNat := by
  simp [regsUpTo]

theorem regsUpTo_eq (x : Nibble) : regsUpTo x = List.range' 0 (x.toNat + 1) := by
  rw [regsUpTo, List.range_eq_range']

theorem rowOffsets_eq (n : Nibble) : rowOffsets n = List.range' 0 n.toNat := by
  rw [rowOffsets, List.range_eq_range']

/-! ## The block store -/

/-- What memory m holds after the store of registers k, k+1, ... of s to the addresses from `ea k` up to `top`. -/
def StoredUpTo (s : State) (k top : Nat) (m : Memory) : Prop :=
  m.wf = true ∧ (∀ a, s.ea k ≤ a → a < top → m.read a = s.getV (regOf (a - s.iReg.toNat))) ∧
    ∀ a, a < s.ea k ∨ top ≤ a → m.read a = s.mem.read a

theorem storeReg_of_lt {k : Nat} {s : State} (h : s.ea k < 4096) :
    storeReg k s = .ok () { s with mem := s.mem.write (s.ea k) (s.getV (regOf k)) } := writeByte_of_lt _ s h

theorem storeReg_of_ge {k : Nat} {s : State} (h : 4096 ≤ s.ea k) :
    storeReg k s = .raise .outOfBounds (some (s.ea k)) s := writeByte_of_ge _ s h

/-- One register stored in front of a run that is stored already. -/
theorem StoredUpTo.cons {s : State} {k top : Nat} {m : Memory} (hwf : s.mem.wf = true) (hk : s.ea k < top)
    (h : StoredUpTo { s with mem := s.mem.write (s.ea k) (s.getV (regOf k)) } (k + 1) top m) :
    StoredUpTo s k top m := by
  obtain ⟨hm, hin, hout⟩ := h
  simp only [State.ea, State.getV] at hk hin hout
  refine ⟨hm, fun a h1 h2 => ?_, fun a h1 => ?_⟩
  · simp only [State.ea, State.getV] at h1 ⊢
    by_cases ha : a = s.iReg.toNat + k
    · subst ha
      rw [hout _ (.inl (by omega)), Memory.read_write _ hwf, if_pos rfl]
      simp only [Nat.add_sub_cancel_left]
    · exact hin a (by omega) h2
  · simp only [State.ea] at h1
    rw [hout a (by omega), Memory.read_write_other _ (by omega)]

/-- Nothing stored yet. -/
theorem StoredUpTo.nil {s : State} {k top : Nat} (hwf : s.mem.wf = true) (h : top ≤ s.ea k) :
    StoredUpTo s k top s.mem :=
  ⟨hwf, fun a h1 h2 => by omega, fun _ _ => rfl⟩

/-- The block store inside the memory. -/
theorem forEach_storeReg_ok : ∀ (n k : Nat) (s : State), s.mem.wf = true → s.ea (k + n) ≤ 4096 →
    ∃ m, forEach storeReg (List.range' k n) s = .ok () { s with mem := m } ∧ StoredUpTo s k (s.ea (k + n)) m
  | 0, _, s, hwf, _ => ⟨s.mem, rfl, StoredUpTo.nil hwf (le_refl _)⟩
  | n + 1, k, s, hwf, h => by
    have hk : s.ea k < 4096 := by simp only [State.ea] at h ⊢; omega
    have he : k + (n + 1) = k + 1 + n := by omega
    rw [he] at h
    obtain ⟨m, hm, hst⟩ := forEach_storeReg_ok n (k + 1)
      { s with mem := s.mem.write (s.ea k) (s.getV (regOf k)) } (Memory.wf_write _ hwf hk) h
    refine ⟨m, ?_, ?_⟩
    · rw [List.range'_succ, forEach, storeReg_of_lt hk, Result.bind_ok, hm]
    · rw [he]
      exact StoredUpTo.cons hwf (by simp only [State.ea]; omega) hst

/-- The block store that leaves the memory: what fits is stored, and the first address outside is named. -/
theorem forEach_storeReg_raise : ∀ (n k : Nat) (s : State), s.mem.wf = true → 0 < n →
    4096 < s.ea (k + n) →
    ∃ m, forEach storeReg (List.range' k n) s =
        .raise .outOfBounds (some (max 4096 (s.ea k))) { s with mem := m } ∧
      StoredUpTo s k 4096 m
  | n + 1, k, s, hwf, _, h => by
    by_cases hk : s.ea k < 4096
    · have he : k + (n + 1) = k + 1 + n := by omega
      rw [he] at h
      have hn : 0 < n := by
        rcases Nat.eq_zero_or_pos n with rfl | hn
        · simp only [State.ea] at h hk; omega
        · exact hn
      obtain ⟨m, hm, hst⟩ := forEach_storeReg_raise n (k + 1)
        { s with mem := s.mem.write (s.ea k) (s.getV (regOf k)) } (Memory.wf_write _ hwf hk) hn h
      refine ⟨m, ?_, StoredUpTo.cons hwf hk hst⟩
      rw [List.range'_succ, forEach, storeReg_of_lt hk, Result.bind_ok, hm]
      simp only [State.ea] at hk ⊢
      congr 2
      omega
    · have hge := Nat.not_lt.mp hk
      refine ⟨s.mem, ?_, StoredUpTo.nil hwf hge⟩
      rw [List.range'_succ, forEach, storeReg_of_ge hge, Result.bind_raise, Nat.max_eq_right hge]

/-! ## The block load -/

/-- What the registers of t hold after the load of registers k, k+1, ... below `top` from the memory of s. -/
def LoadedUpTo (s : State) (k top : Nat) (t : State) : Prop :=
  t = { s with v := t.v } ∧
    (∀ r : Nibble, k ≤ r.toNat → r.toNat < top → t.getV r = s.mem.read (s.ea r.toNat)) ∧
    ∀ r : Nibble, r.toNat < k ∨ top ≤ r.toNat → t.getV r = s.getV r

theorem loadReg_of_lt {k : Nat} {s : State} (h : s.ea k < 4096) :
    loadReg k s = .ok () (s.setV (regOf k) (s.mem.read (s.ea k))) := by
  rw [loadReg, readByte_of_lt s h, Result.bind_ok]

theorem loadReg_of_ge {k : Nat} {s : State} (h : 4096 ≤ s.ea k) :
    loadReg k s = .raise .outOfBounds (some (s.ea k)) s := by
  rw [loadReg, readByte_of_ge s h, Result.bind_raise]

theorem LoadedUpTo.nil {s : State} {k top : Nat} (h : top ≤ k) : LoadedUpTo s k top s :=
  ⟨rfl, fun r h1 h2 => by omega, fun _ _ => rfl⟩

/-- One register loaded in front of a run that is loaded already. -/
theorem LoadedUpTo.cons {s t : State} {k top : Nat} (hk : k < 16) (htop : k < top)
    (h : LoadedUpTo (s.setV (regOf k) (s.mem.read (s.ea k))) (k + 1) top t) : LoadedUpTo s k top t := by
  obtain ⟨ht, hin, hout⟩ := h
  have hother : ∀ {r : Nibble}, r.toNat ≠ k → r ≠ regOf k := fun hr e => hr (by rw [e, toNat_regOf hk])
  refine ⟨ht, fun r h1 h2 => ?_, fun r h1 => ?_⟩
  · by_cases hr : r.toNat = k
    · have e : r = regOf k := by rw [← hr, regOf_toNat]
      rw [hout r (.inl (by omega)), e, State.getV_setV_same, toNat_regOf hk]
    · exact hin r (by omega) h2
  · rw [hout r (by omega), State.getV_setV_other s _ (hother (by omega))]

/-- The block load inside the memory. -/
theorem forEach_loadReg_ok : ∀ (n k : Nat) (s : State), k + n ≤ 16 → s.ea (k + n) ≤ 4096 →
    ∃ t, forEach loadReg (List.range' k n) s = .ok () t ∧ LoadedUpTo s k (k + n) t
  | 0, _, s, _, _ => ⟨s, rfl, LoadedUpTo.nil (le_refl _)⟩
  | n + 1, k, s, h16, h => by
    have hk : s.ea k < 4096 := by simp only [State.ea] at h ⊢; omega
    have he : k + (n + 1) = k + 1 + n := by omega
    rw [he] at h
    obtain ⟨t, ht, hl⟩ := forEach_loadReg_ok n (k + 1) (s.setV (regOf k) (s.mem.read (s.ea k))) (by omega) h
    refine ⟨t, ?_, ?_⟩
    · rw [List.range'_succ, forEach, loadReg_of_lt hk, Result.bind_ok, ht]
    · rw [he]
      exact LoadedUpTo.cons (by omega) (by omega) hl

/-- The block load that leaves the memory: the registers before it keep the bytes loaded. -/
theorem forEach_loadReg_raise : ∀ (n k : Nat) (s : State), k + n ≤ 16 → 0 < n → 4096 < s.ea (k + n) →
    ∃ t, forEach loadReg (List.range' k n) s =
        .raise .outOfBounds (some (max 4096 (s.ea k))) t ∧
      LoadedUpTo s k (4096 - s.iReg.toNat) t
  | n + 1, k, s, h16, _, h => by
    by_cases hk : s.ea k < 4096
    · have he : k + (n + 1) = k + 1 + n := by omega
      rw [he] at h
      have hn : 0 < n := by
        rcases Nat.eq_zero_or_pos n with rfl | hn
        · simp only [State.ea] at h hk; omega
        · exact hn
      obtain ⟨t, ht, hl⟩ := forEach_loadReg_raise n (k + 1) (s.setV (regOf k) (s.mem.read (s.ea k))) (by omega) hn h
      refine ⟨t, ?_, ?_⟩
      · rw [List.range'_succ, forEach, loadReg_of_lt hk, Result.bind_ok, ht]
        simp only [State.ea, State.setV_iReg] at hk ⊢
        congr 2
        omega
      · exact LoadedUpTo.cons (by omega) (by simp only [State.ea] at hk; omega) hl
    · have hge := Nat.not_lt.mp hk
      refine ⟨s, ?_, LoadedUpTo.nil (by simp only [State.ea] at hge; omega)⟩
      rw [List.range'_succ, forEach, loadReg_of_ge hge, Result.bind_raise, Nat.max_eq_right hge]

end Sys2Proof.Machine
end

