-- ==== Sys2Proof/Laws/Decode.lean ====
section
/-! SUPPORT. The fields of a word put together in a format (30_encoding.md R61, R62), and a word put together
again from its fields. -/

namespace Sys2Proof.Decode

/-! ## Fields and formats as numbers -/

theorem toNat_opOf (w : Word) : (opOf w).toNat = w.toNat / 4096 := by
  have := w.isLt
  simp only [opOf, BitVec.extractLsb'_toNat, Nat.shiftRight_eq_div_pow]
  omega

theorem toNat_xOf (w : Word) : (xOf w).toNat = w.toNat / 256 % 16 := by
  simp only [xOf, BitVec.extractLsb'_toNat, Nat.shiftRight_eq_div_pow]

theorem toNat_yOf (w : Word) : (yOf w).toNat = w.toNat / 16 % 16 := by
  simp only [yOf, BitVec.extractLsb'_toNat, Nat.shiftRight_eq_div_pow]

theorem toNat_nOf (w : Word) : (nOf w).toNat = w.toNat % 16 := by
  simp [nOf, BitVec.extractLsb'_toNat]

theorem toNat_kkOf (w : Word) : (kkOf w).toNat = w.toNat % 256 := by
  simp [kkOf, BitVec.extractLsb'_toNat]

theorem toNat_nnnOf (w : Word) : (nnnOf w).toNat = w.toNat % 4096 := by
  simp [nnnOf, BitVec.extractLsb'_toNat]

theorem toNat_append_eq {m n : Nat} (a : BitVec m) (b : BitVec n) :
    (a ++ b).toNat = a.toNat * 2 ^ n + b.toNat := by
  rw [BitVec.toNat_append, Nat.shiftLeft_eq, Nat.mul_comm, Nat.two_pow_add_eq_or_of_lt b.isLt]

theorem toNat_formatNNN (o : Nibble) (nnn : Addr12) :
    (formatNNN o nnn).toNat = o.toNat * 4096 + nnn.toNat := toNat_append_eq o nnn

theorem toNat_formatXKK (o x : Nibble) (kk : Byte) :
    (formatXKK o x kk).toNat = o.toNat * 4096 + x.toNat * 256 + kk.toNat := by
  show (o ++ x ++ kk).toNat = _
  rw [toNat_append_eq, toNat_append_eq]
  omega

theorem toNat_formatXYN (o x y n : Nibble) :
    (formatXYN o x y n).toNat = o.toNat * 4096 + x.toNat * 256 + y.toNat * 16 + n.toNat := by
  show (o ++ x ++ y ++ n).toNat = _
  rw [toNat_append_eq, toNat_append_eq, toNat_append_eq]
  omega

/-! ## The fields of a word in a format -/

@[simp] theorem opOf_formatNNN (o : Nibble) (nnn : Addr12) : opOf (formatNNN o nnn) = o := by
  apply BitVec.eq_of_toNat_eq
  rw [toNat_opOf, toNat_formatNNN]
  omega

@[simp] theorem nnnOf_formatNNN (o : Nibble) (nnn : Addr12) : nnnOf (formatNNN o nnn) = nnn := by
  apply BitVec.eq_of_toNat_eq
  rw [toNat_nnnOf, toNat_formatNNN]
  omega

@[simp] theorem opOf_formatXKK (o x : Nibble) (kk : Byte) : opOf (formatXKK o x kk) = o := by
  apply BitVec.eq_of_toNat_eq
  rw [toNat_opOf, toNat_formatXKK]
  omega

@[simp] theorem xOf_formatXKK (o x : Nibble) (kk : Byte) : xOf (formatXKK o x kk) = x := by
  apply BitVec.eq_of_toNat_eq
  rw [toNat_xOf, toNat_formatXKK]
  omega

@[simp] theorem kkOf_formatXKK (o x : Nibble) (kk : Byte) : kkOf (formatXKK o x kk) = kk := by
  apply BitVec.eq_of_toNat_eq
  rw [toNat_kkOf, toNat_formatXKK]
  omega

@[simp] theorem opOf_formatXYN (o x y n : Nibble) : opOf (formatXYN o x y n) = o := by
  apply BitVec.eq_of_toNat_eq
  rw [toNat_opOf, toNat_formatXYN]
  omega

@[simp] theorem xOf_formatXYN (o x y n : Nibble) : xOf (formatXYN o x y n) = x := by
  apply BitVec.eq_of_toNat_eq
  rw [toNat_xOf, toNat_formatXYN]
  omega

@[simp] theorem yOf_formatXYN (o x y n : Nibble) : yOf (formatXYN o x y n) = y := by
  apply BitVec.eq_of_toNat_eq
  rw [toNat_yOf, toNat_formatXYN]
  omega

@[simp] theorem nOf_formatXYN (o x y n : Nibble) : nOf (formatXYN o x y n) = n := by
  apply BitVec.eq_of_toNat_eq
  rw [toNat_nOf, toNat_formatXYN]
  omega

/-! ## A word from its fields -/

theorem formatNNN_fields (w : Word) : formatNNN (opOf w) (nnnOf w) = w := by
  apply BitVec.eq_of_toNat_eq
  rw [toNat_formatNNN, toNat_opOf, toNat_nnnOf]
  omega

theorem formatXKK_fields (w : Word) : formatXKK (opOf w) (xOf w) (kkOf w) = w := by
  apply BitVec.eq_of_toNat_eq
  rw [toNat_formatXKK, toNat_opOf, toNat_xOf, toNat_kkOf]
  omega

theorem formatXYN_fields (w : Word) : formatXYN (opOf w) (xOf w) (yOf w) (nOf w) = w := by
  apply BitVec.eq_of_toNat_eq
  rw [toNat_formatXYN, toNat_opOf, toNat_xOf, toNat_yOf, toNat_nOf]
  omega

@[simp] theorem wordOfBytes_bytes (w : Word) : wordOfBytes (highByte w) (lowByte w) = w := by
  apply BitVec.eq_of_toNat_eq
  have h : (wordOfBytes (highByte w) (lowByte w)).toNat = (highByte w).toNat * 256 + (lowByte w).toNat :=
    toNat_append_eq (highByte w) (lowByte w)
  have := w.isLt
  rw [h]
  simp only [highByte, lowByte, BitVec.extractLsb'_toNat, Nat.shiftRight_eq_div_pow]
  omega

theorem toNat_wordOfBytes (hi lo : Byte) : (wordOfBytes hi lo).toNat = hi.toNat * 256 + lo.toNat :=
  toNat_append_eq hi lo

end Sys2Proof.Decode

namespace Sys2Proof

/-- A word of a family other than 0 is none of the two literals (30_encoding.md R63). -/
theorem decodeWord_of_family {w : Word} (h : Decode.opOf w ≠ 0#4) : decodeWord w = Decode.byFamily w := by
  have h1 : w ≠ 0x00E0#16 := by rintro rfl; exact h (by decide)
  have h2 : w ≠ 0x00EE#16 := by rintro rfl; exact h (by decide)
  simp only [decodeWord, if_neg h1, if_neg h2]

end Sys2Proof
end

