-- ==== Sys2Proof/Laws/Cycle.lean ====
section
/-! SUPPORT. One step of the core and of the machine, said once: what it is when the core runs, waits or has
faulted, and what it is on a placed word. -/

namespace Sys2Proof.Machine

theorem step_eq (s : State) : step s = nextEvent s := rfl

/-- With no host event waiting a step is a Step of the core. -/
theorem step_of_no_event {s : State} (h : s.schedule = []) : step s = coreStep s := by
  rw [step_eq, nextEvent, h]

/-- The first event of the schedule is taken, and the rest stays. -/
theorem step_of_event {s : State} {e : HostEvent} {rest : List HostEvent} (h : s.schedule = e :: rest) :
    step s = hostEvent e { s with schedule := rest } := by
  rw [step_eq, nextEvent, h]

theorem coreStep_of_running {s : State} (h : s.run = .running) : coreStep s = cycle { s with started := true } := by
  show coreStep s = cycle s.start
  rw [coreStep, h]

/-- In WAIT_KEY and FAULTED a Step has no effect (70_reset_and_hazards.md R232). -/
theorem coreStep_of_not_running {s : State} (h : s.run ≠ .running) : coreStep s = .next s := by
  unfold coreStep
  split
  · next e => exact absurd e h
  · rfl
  · rfl

/-- The word at the pc, where both its bytes are in the memory. -/
def State.wordAtPc (s : State) : Word := Decode.wordOfBytes (s.mem.read s.pc.toNat) (s.mem.read (s.pc.toNat + 1))

theorem cycle_of_fetch {s : State} (h : s.pc.toNat + 1 < 4096) :
    cycle s = execWord s.wordAtPc s.advance := by
  rw [cycle, readWord_of_lt s h]
  rfl

/-- A fetch outside the memory: RUN and FAULT, nothing else (60_exceptions.md R188). -/
theorem cycle_of_fetch_fault {s : State} (h : 4096 ≤ s.pc.toNat + 1) :
    cycle s = .next (s.takeFault .outOfBounds none s.pc (some (max 4096 s.pc.toNat))) := by
  rw [cycle, readWord_of_ge s h]

/-- Everything one cycle can be: a fetch fault, an instruction, or an unsupported word. -/
theorem cycle_cases (s : State) :
    (4096 ≤ s.pc.toNat + 1 ∧
      cycle s = .next (s.takeFault .outOfBounds none s.pc (some (max 4096 s.pc.toNat)))) ∨
    (s.pc.toNat + 1 < 4096 ∧ ∃ i, decodeWord s.wordAtPc = .ok i ∧ cycle s = exec i s.advance) ∨
    (s.pc.toNat + 1 < 4096 ∧ ∃ r, decodeWord s.wordAtPc = .error r ∧
      cycle s = execUnsupported s.wordAtPc s.advance) := by
  by_cases h : s.pc.toNat + 1 < 4096
  · right
    rw [cycle_of_fetch h]
    cases e : decodeWord s.wordAtPc with
    | ok i => exact .inl ⟨h, i, rfl, by rw [execWord, e]⟩
    | error r => exact .inr ⟨h, r, rfl, by rw [execWord, e]⟩
  · exact .inl ⟨Nat.not_lt.mp h, cycle_of_fetch_fault (Nat.not_lt.mp h)⟩

/-- The address a word is executed from is the pc before the advance (10_state.md R15). -/
@[simp] theorem State.instrAddr_advance (s : State) : s.advance.instrAddr = s.pc := by
  simp [State.advance, State.instrAddr]

/-! ## Everything a step can do to a state -/

/-- Every event but a Step ends in a next state or is refused. -/
theorem hostEvent_ne_fault {e : HostEvent} {s : State} {f : Fault} (he : e ≠ .step) : hostEvent e s ≠ .fault f := by
  cases e with
  | step => exact absurd rfl he
  | load image =>
    simp only [hostEvent, loadImage]
    split
    · simp
    · split <;> simp
  | setMapping table =>
    simp only [hostEvent, installMapping]
    split
    · simp
    · split <;> simp
  | soundPulse =>
    simp only [hostEvent, soundPulse]
    split <;> simp
  | _ => simp [hostEvent]

/-! ## The end of a run -/

/-- The end of a run is no fault (60_exceptions.md R189). -/
theorem State.EndOfRun.safe {s : State} (h : s.EndOfRun) : s.Safe := by
  rw [State.Safe, h.1]
  decide

/-! ## A placed word -/

theorem State.fetchablePc_lt (s : State) : s.fetchablePc.toNat + 1 < 4096 := by
  unfold State.fetchablePc
  split
  · assumption
  · decide

/-- A placed word is the word the next step fetches, in a state whose memory is in canonical form. -/
theorem State.wordAtPc_placeWord {s : State} (w : Word) (h : s.mem.wf = true) : (s.placeWord w).wordAtPc = w := by
  have hlt := s.fetchablePc_lt
  have h1 := Memory.wf_write (Decode.highByte w) h (Nat.lt_of_succ_lt hlt)
  simp only [State.wordAtPc, State.placeWord, Memory.read_write _ h1, Memory.read_write _ h]
  simp

/-- The next step executes a placed word, and moves the pc past it. -/
theorem step_placeWord {s : State} (w : Word) (h : s.mem.wf = true) :
    step (s.placeWord w) = execWord w { s.placeWord w with pc := s.fetchablePc + 2#16, started := true } := by
  have hlt : (s.placeWord w).pc.toNat + 1 < 4096 := s.fetchablePc_lt
  have hw : ({ s.placeWord w with started := true } : State).wordAtPc = w := s.wordAtPc_placeWord w h
  rw [step_of_no_event rfl, coreStep_of_running rfl, cycle_of_fetch (by exact hlt), hw]
  rfl

end Sys2Proof.Machine
end

