-- ==== Sys2Proof/Laws/Events.lean ====
section
/-! SUPPORT. The key events, once: which field each can change, and what it leaves there. -/

namespace Sys2Proof.Machine

/-- Setting a key flag changes the key flags only. -/
theorem State.setKey_frame (s : State) (k : Nat) (down : Bool) :
    s.setKey k down = { s with key := (s.setKey k down).key } := by
  unfold State.setKey
  split <;> rfl

theorem State.keyUp_frame (s : State) (k : Nat) : s.keyUp k = { s with key := (s.keyUp k).key } :=
  s.setKey_frame k false

theorem State.keyDown_of_ge (s : State) {k : Nat} (h : 16 ≤ k) : s.keyDown k = s := by
  simp only [State.keyDown, if_neg (Nat.not_lt.mpr h)]

/-- A key-down outside a key wait sets its flag. -/
theorem State.keyDown_of_not_waiting {s : State} {k : Nat} (hr : s.run ≠ .waitKey) (h : k < 16) :
    s.keyDown k = { s with key := s.key.set k true h } := by
  rw [State.keyDown, if_pos h, State.setKey_of_lt s true h]
  unfold State.endKeyWait
  split
  · next e => exact absurd e hr
  · rfl
  · rfl

/-- A key-down in a key wait sets its flag, writes its code and ends the wait. -/
theorem State.keyDown_of_waiting {s : State} {k : Nat} (hr : s.run = .waitKey) (h : k < 16) :
    s.keyDown k =
      { s.setV s.waitX (BitVec.ofNat 8 k) with key := s.key.set k true h, run := .running } := by
  rw [State.keyDown, if_pos h, State.setKey_of_lt s true h]
  unfold State.endKeyWait
  split
  · rfl
  · next e => exact absurd (hr.symm.trans e) (by decide)
  · next e => exact absurd (hr.symm.trans e) (by decide)

/-- A host key is delivered as some code, or ignored. -/
theorem deliverKey_cases (deliver : State → Nat → State) (h : HostKeyId) (s : State) :
    (∃ k, s.resolveKey h = some k ∧ deliverKey deliver h s = deliver s k) ∨
      (s.resolveKey h = none ∧ deliverKey deliver h s = s) := by
  unfold deliverKey
  split
  · next k e => exact .inl ⟨k, e, rfl⟩
  · next e => exact .inr ⟨e, rfl⟩

/-- An installed key map: neither the start-up over nor a table installed in it, and only the table and its mark
change. -/
theorem installMapping_next {table : KeyMap} {s t : State} (h : installMapping table s = .next t) :
    s.started = false ∧ s.mapped = false ∧ t = { s with keyMap := some table, mapped := true } := by
  unfold installMapping at h
  split at h
  · cases h
  · next h1 =>
    split at h
    · cases h
    · next h2 =>
      cases h
      exact ⟨by simpa using h1, by simpa using h2, rfl⟩

/-- A program load that goes through changes the memory only. -/
theorem loadImage_next {image : List Byte} {s t : State} (h : loadImage image s = .next t) :
    s.started = false ∧ 0x200 + image.length ≤ 4096 ∧ t = { s with mem := s.mem.writeImage 0x200 image } := by
  unfold loadImage at h
  split at h
  · cases h
  · next h1 =>
    split at h
    · cases h
    · next h2 =>
      cases h
      exact ⟨by simpa using h1, Nat.not_lt.mp h2, rfl⟩

end Sys2Proof.Machine
end

