-- ==== Sys2Proof/Laws/Exec.lean ====
section
/-! SUPPORT. Inversion, once per instruction that can fault: if it answers a next state, which one. (The next state of
every other instruction is its meaning's own, by computation.) -/

namespace Sys2Proof.Machine

/-- The state in which the fault of instruction i, which raised in state u, is taken. -/
def faultOf (i : Instr) (s u : State) (kind : ErrorKind) (info : Option Nat) : State :=
  u.takeFault kind (some (encode i)) s.instrAddr info

/-! ## Control transfer and keys -/

theorem exec_ret_next {s t : State} (h : exec .ret s = .next t) :
    (s.sp.toNat = 0 ∧ t = faultOf .ret s s .stackUnderflow none) ∨
      s.sp.toNat ≠ 0 ∧ ∃ hs : s.sp.toNat - 1 < 16, t = { s with pc := s.stack[s.sp.toNat - 1], sp := s.sp - 1#8 } := by
  have h : execRet s = .next t := h
  by_cases h0 : s.sp.toNat = 0
  · rw [execRet, pop_of_zero h0] at h
    cases h
    exact .inl ⟨h0, rfl⟩
  · by_cases h1 : s.sp.toNat - 1 < 16
    · rw [execRet, pop_of_le h0 h1] at h
      cases h
      exact .inr ⟨h0, h1, rfl⟩
    · rw [execRet, pop_of_gt (by omega)] at h
      cases h

theorem exec_call_next {s t : State} {nnn : Addr12} (h : exec (.call nnn) s = .next t) :
    (s.sp.toNat = 16 ∧ t = faultOf (.call nnn) s s .stackOverflow none) ∨
      ∃ hs : s.sp.toNat < 16,
        t = { s with stack := s.stack.set s.sp.toNat s.pc hs, sp := s.sp + 1#8, pc := target nnn } := by
  have h : execCall nnn s = .next t := h
  rcases Nat.lt_trichotomy s.sp.toNat 16 with h1 | h1 | h1
  · rw [execCall, push_of_lt _ h1] at h
    cases h
    exact .inr ⟨h1, rfl⟩
  · rw [execCall, push_of_eq _ h1] at h
    cases h
    exact .inl ⟨h1, rfl⟩
  · rw [execCall, push_of_gt _ h1] at h
    cases h

theorem exec_skp_next {s t : State} {x : Nibble} (h : exec (.skp x) s = .next t) :
    (∃ info, t = faultOf (.skp x) s s .outOfBounds info) ∨ ∃ p, t = s.skipIf p := by
  have h : execSkp x s = .next t := h
  rcases isPressed_cases (s.getV x) s with ⟨p, e⟩ | e <;> rw [execSkp, e] at h <;> cases h
  · exact .inr ⟨p, rfl⟩
  · exact .inl ⟨_, rfl⟩

theorem exec_sknp_next {s t : State} {x : Nibble} (h : exec (.sknp x) s = .next t) :
    (∃ info, t = faultOf (.sknp x) s s .outOfBounds info) ∨ ∃ p, t = s.skipIf p := by
  have h : execSknp x s = .next t := h
  rcases isPressed_cases (s.getV x) s with ⟨p, e⟩ | e <;> rw [execSknp, e] at h <;> cases h
  · exact .inr ⟨!p, rfl⟩
  · exact .inl ⟨_, rfl⟩

/-! ## Display -/

theorem exec_drw_next {s t : State} {x y n : Nibble} (h : exec (.drw x y n) s = .next t) :
    (∃ info, t = faultOf (.drw x y n) s s .outOfBounds info) ∨
      ∃ rows, t = blitRows (s.getV x) (s.getV y) rows s := by
  have h : execDrw x y n s = .next t := h
  rcases readBytes_cases (s.ea 0) s (rowOffsets n) with ⟨rows, e⟩ | ⟨a, -, e⟩ <;> rw [execDrw, e] at h <;> cases h
  · exact .inr ⟨rows, rfl⟩
  · exact .inl ⟨_, rfl⟩

/-! ## Stores -/

/-- What a store can do to the memory: the canonical form stays, and so does every address it does not store to. -/
def MemoryStored (s : State) (addrs : List Nat) (m : Memory) : Prop :=
  (s.mem.wf = true → m.wf = true) ∧ ∀ a, a ∉ addrs → m.read a = s.mem.read a

/-- A run of byte stores of s goes through with memory m, or raises with it. -/
def StoreAnswer (s : State) (r : Result Unit) (m : Memory) : Prop :=
  r = .ok () { s with mem := m } ∨ ∃ n, r = .raise .outOfBounds n { s with mem := m }

theorem StoreAnswer.finish_next {s t : State} {r : Result Unit} {m : Memory} {i : Instr} (hr : StoreAnswer s r m)
    (h : finish (encode i) s r = .next t) :
    t = { s with mem := m } ∨ ∃ info, t = faultOf i s { s with mem := m } .outOfBounds info := by
  rcases hr with rfl | ⟨n, rfl⟩ <;> cases h
  · exact .inl rfl
  · exact .inr ⟨n, rfl⟩

theorem forEach_storeReg_any : ∀ (ks : List Nat) (s : State),
    ∃ m, StoreAnswer s (forEach storeReg ks s) m ∧ MemoryStored s (ks.map s.ea) m
  | [], s => ⟨s.mem, .inl rfl, id, fun _ _ => rfl⟩
  | k :: ks, s => by
    by_cases hk : s.ea k < 4096
    · obtain ⟨m, hm, hwf, hout⟩ := forEach_storeReg_any ks { s with mem := s.mem.write (s.ea k) (s.getV (regOf k)) }
      refine ⟨m, ?_, fun h => hwf (Memory.wf_write _ h hk), fun a ha => ?_⟩
      · rw [forEach, storeReg_of_lt hk, Result.bind_ok]
        exact hm
      · rw [List.map_cons, List.mem_cons, not_or] at ha
        rw [hout a ha.2]
        exact Memory.read_write_other _ ha.1 _
    · refine ⟨s.mem, .inr ⟨some (s.ea k), ?_⟩, id, fun _ _ => rfl⟩
      rw [forEach, storeReg_of_ge (Nat.not_lt.mp hk), Result.bind_raise]

theorem exec_storeRegs_next {s t : State} {x : Nibble} (h : exec (.storeRegs x) s = .next t) :
    ∃ m, MemoryStored s (storedAddrs s (.storeRegs x)) m ∧
      (t = { s with mem := m } ∨ ∃ info, t = faultOf (.storeRegs x) s { s with mem := m } .outOfBounds info) := by
  obtain ⟨m, ha, hm⟩ := forEach_storeReg_any (regsUpTo x) s
  exact ⟨m, hm, ha.finish_next h⟩

/-- One byte stored, then what follows in the state it left. -/
theorem StoreAnswer.cons {s : State} {a : Nat} {b : Byte} {as : List Nat} {k : State → Result Unit}
    (h : ∃ m, StoreAnswer { s with mem := s.mem.write a b } (k { s with mem := s.mem.write a b }) m ∧
      MemoryStored { s with mem := s.mem.write a b } as m) :
    ∃ m, StoreAnswer s ((writeByte a b s).bind fun _ u => k u) m ∧ MemoryStored s (a :: as) m := by
  by_cases ha : a < 4096
  · obtain ⟨m, hm, hwf, hout⟩ := h
    refine ⟨m, ?_, fun h => hwf (Memory.wf_write _ h ha), fun x hx => ?_⟩
    · rw [writeByte_of_lt _ _ ha, Result.bind_ok]
      exact hm
    · rw [List.mem_cons, not_or] at hx
      rw [hout x hx.2]
      exact Memory.read_write_other _ hx.1 _
  · refine ⟨s.mem, .inr ⟨some a, ?_⟩, id, fun _ _ => rfl⟩
    rw [writeByte_of_ge _ _ (Nat.not_lt.mp ha), Result.bind_raise]

theorem StoreAnswer.last (a : Nat) (b : Byte) (s : State) :
    ∃ m, StoreAnswer s (writeByte a b s) m ∧ MemoryStored s [a] m := by
  by_cases ha : a < 4096
  · exact ⟨_, .inl (writeByte_of_lt b s ha), fun h => Memory.wf_write _ h ha,
      fun x hx => Memory.read_write_other _ (by simpa using hx) _⟩
  · exact ⟨s.mem, .inr ⟨_, writeByte_of_ge b s (Nat.not_lt.mp ha)⟩, id, fun _ _ => rfl⟩

theorem exec_ldB_next {s t : State} {x : Nibble} (h : exec (.ldB x) s = .next t) :
    ∃ m, MemoryStored s (storedAddrs s (.ldB x)) m ∧
      (t = { s with mem := m } ∨ ∃ info, t = faultOf (.ldB x) s { s with mem := m } .outOfBounds info) := by
  have h3 := StoreAnswer.last (s.ea 2) (units (s.getV x))
  have h2 := fun u : State => StoreAnswer.cons (s := u) (a := s.ea 1) (b := tens (s.getV x)) (h3 _)
  obtain ⟨m, ha, hm⟩ := StoreAnswer.cons (s := s) (a := s.ea 0) (b := hundreds (s.getV x))
    (k := fun u => (writeByte (s.ea 1) (tens (s.getV x)) u).bind fun _ v => writeByte (s.ea 2) (units (s.getV x)) v)
    (h2 _)
  exact ⟨m, hm, ha.finish_next h⟩

/-! ## The block load -/

/-- t is u but for registers of the list. -/
def RegistersLoaded (u t : State) (regs : List Nibble) : Prop :=
  t = { u with v := t.v } ∧ ∀ r, r ∉ regs → t.getV r = u.getV r

theorem forEach_loadReg_any : ∀ (ks : List Nat) (s : State),
    ∃ u, (forEach loadReg ks s = .ok () u ∨ ∃ n, forEach loadReg ks s = .raise .outOfBounds n u) ∧
      RegistersLoaded s u (ks.map regOf)
  | [], s => ⟨s, .inl rfl, rfl, fun _ _ => rfl⟩
  | k :: ks, s => by
    by_cases hk : s.ea k < 4096
    · obtain ⟨u, hu, he, hout⟩ := forEach_loadReg_any ks (s.setV (regOf k) (s.mem.read (s.ea k)))
      refine ⟨u, ?_, he, fun r hr => ?_⟩
      · rw [forEach, loadReg_of_lt hk, Result.bind_ok]
        exact hu
      · rw [List.map_cons, List.mem_cons, not_or] at hr
        rw [hout r hr.2, State.getV_setV_other _ _ hr.1]
    · refine ⟨s, .inr ⟨some (s.ea k), ?_⟩, rfl, fun _ _ => rfl⟩
      rw [forEach, loadReg_of_ge (Nat.not_lt.mp hk), Result.bind_raise]

theorem exec_loadRegs_next {s t : State} {x : Nibble} (h : exec (.loadRegs x) s = .next t) :
    ∃ u, RegistersLoaded s u (destRegs (.loadRegs x)) ∧
      (t = u ∨ ∃ info, t = faultOf (.loadRegs x) s u .outOfBounds info) := by
  obtain ⟨u, hu, hr⟩ := forEach_loadReg_any (regsUpTo x) s
  have h : execLoadRegs x s = .next t := h
  refine ⟨u, hr, ?_⟩
  rcases hu with e | ⟨n, e⟩ <;> rw [execLoadRegs, e] at h <;> cases h
  · exact .inl rfl
  · exact .inr ⟨n, rfl⟩

end Sys2Proof.Machine
end

