-- ==== Sys2Proof/Laws/Flags.lean ====
section
/-! SUPPORT. The exact-then-narrow arithmetic as bit-vector arithmetic, and the flags as conditions. -/

namespace Sys2Proof.Machine

theorem sum8_eq (a b : Byte) : sum8 a b = a + b := by
  apply BitVec.eq_of_toNat_eq
  simp [sum8, low8]

theorem diff8_eq (a b : Byte) : diff8 a b = a - b := by
  apply BitVec.eq_of_toNat_eq
  have := a.isLt
  have := b.isLt
  simp only [diff8, low8, BitVec.toNat_ofNat, BitVec.toNat_sub]
  omega

theorem half8_eq (a : Byte) : half8 a = a >>> 1 := by
  apply BitVec.eq_of_toNat_eq
  have := a.isLt
  simp only [half8, low8, BitVec.toNat_ofNat, BitVec.toNat_ushiftRight, Nat.shiftRight_eq_div_pow]
  omega

theorem double8_eq (a : Byte) : double8 a = a <<< 1 := by
  apply BitVec.eq_of_toNat_eq
  simp [double8, low8, Nat.shiftLeft_eq]

theorem lowBitFlag_eq (a : Byte) : lowBitFlag a = a.getLsbD 0 := by
  simp [lowBitFlag, BitVec.getLsbD, Nat.testBit_zero]

theorem highBitFlag_eq (a : Byte) : highBitFlag a = a.getLsbD 7 := by
  have h : a.toNat / 128 < 2 := by have := a.isLt; omega
  simp only [highBitFlag, BitVec.getLsbD, Nat.testBit, Nat.shiftRight_eq_div_pow, Nat.reducePow, Nat.one_and_eq_mod_two]
  rcases (by omega : a.toNat / 128 = 0 ∨ a.toNat / 128 = 1) with h | h <;> simp [h]

@[simp] theorem flagByte_true : flagByte true = 0x01#8 := rfl

@[simp] theorem flagByte_false : flagByte false = 0x00#8 := rfl

/-- A flag is 0 or 1 (10_state.md R32). -/
theorem flagByte_le_one (c : Bool) : (flagByte c).toNat ≤ 1 := by cases c <;> decide

theorem toNat_target (nnn : Addr12) : (target nnn).toNat = nnn.toNat := by
  have := nnn.isLt
  simp only [target, BitVec.toNat_setWidth]
  omega

/-- JP V0 never wraps (10_state.md R16). -/
theorem toNat_indexedTarget (s : State) (nnn : Addr12) :
    (s.indexedTarget nnn).toNat = nnn.toNat + (s.getV 0#4).toNat := by
  have := nnn.isLt
  have := (s.getV 0#4).isLt
  simp only [State.indexedTarget, BitVec.toNat_ofNat]
  omega

end Sys2Proof.Machine
end

