-- ==== Sys2Proof/Laws/PerInstr.lean ====
section
/-! SUPPORT. Statements made per instruction: the high nibble of an instruction's word is the family selector the
spec gives it (30_encoding.md R64). -/

namespace Sys2Proof.Laws.Family

/-- The family selector of each instruction (30_encoding.md R64). -/
def selector : Instr → Nibble
  | .cls => 0x0#4
  | .ret => 0x0#4
  | .jp _ => 0x1#4
  | .call _ => 0x2#4
  | .seImm _ _ => 0x3#4
  | .sneImm _ _ => 0x4#4
  | .seReg _ _ _ => 0x5#4
  | .ldImm _ _ => 0x6#4
  | .addImm _ _ => 0x7#4
  | .ldReg _ _ => 0x8#4
  | .orReg _ _ => 0x8#4
  | .andReg _ _ => 0x8#4
  | .xorReg _ _ => 0x8#4
  | .addReg _ _ => 0x8#4
  | .subReg _ _ => 0x8#4
  | .shr _ _ => 0x8#4
  | .subnReg _ _ => 0x8#4
  | .shl _ _ => 0x8#4
  | .sneReg _ _ _ => 0x9#4
  | .ldI _ => 0xA#4
  | .jpV0 _ => 0xB#4
  | .rnd _ _ => 0xC#4
  | .drw _ _ _ => 0xD#4
  | .skp _ => 0xE#4
  | .sknp _ => 0xE#4
  | .ldVxDt _ => 0xF#4
  | .ldVxK _ => 0xF#4
  | .ldDtVx _ => 0xF#4
  | .ldStVx _ => 0xF#4
  | .addI _ => 0xF#4
  | .ldF _ => 0xF#4
  | .ldB _ => 0xF#4
  | .storeRegs _ => 0xF#4
  | .loadRegs _ => 0xF#4

/-- The high nibble of the instruction's word is its family selector. -/
def Statement (i : Instr) : Prop := Decode.opOf (encode i) = selector i

theorem cls : Statement .cls := by
  show Decode.opOf _ = _
  decide

theorem ret : Statement .ret := by
  show Decode.opOf _ = _
  decide

theorem jp (nnn : Addr12) : Statement (.jp nnn) := Decode.opOf_formatNNN ..

theorem call (nnn : Addr12) : Statement (.call nnn) := Decode.opOf_formatNNN ..

theorem seImm (x : Nibble) (kk : Byte) : Statement (.seImm x kk) := Decode.opOf_formatXKK ..

theorem sneImm (x : Nibble) (kk : Byte) : Statement (.sneImm x kk) := Decode.opOf_formatXKK ..

theorem seReg (x : Nibble) (y : Nibble) (ign : Nibble) : Statement (.seReg x y ign) := Decode.opOf_formatXYN ..

theorem ldImm (x : Nibble) (kk : Byte) : Statement (.ldImm x kk) := Decode.opOf_formatXKK ..

theorem addImm (x : Nibble) (kk : Byte) : Statement (.addImm x kk) := Decode.opOf_formatXKK ..

theorem ldReg (x : Nibble) (y : Nibble) : Statement (.ldReg x y) := Decode.opOf_formatXYN ..

theorem orReg (x : Nibble) (y : Nibble) : Statement (.orReg x y) := Decode.opOf_formatXYN ..

theorem andReg (x : Nibble) (y : Nibble) : Statement (.andReg x y) := Decode.opOf_formatXYN ..

theorem xorReg (x : Nibble) (y : Nibble) : Statement (.xorReg x y) := Decode.opOf_formatXYN ..

theorem addReg (x : Nibble) (y : Nibble) : Statement (.addReg x y) := Decode.opOf_formatXYN ..

theorem subReg (x : Nibble) (y : Nibble) : Statement (.subReg x y) := Decode.opOf_formatXYN ..

theorem shr (x : Nibble) (ign : Nibble) : Statement (.shr x ign) := Decode.opOf_formatXYN ..

theorem subnReg (x : Nibble) (y : Nibble) : Statement (.subnReg x y) := Decode.opOf_formatXYN ..

theorem shl (x : Nibble) (ign : Nibble) : Statement (.shl x ign) := Decode.opOf_formatXYN ..

theorem sneReg (x : Nibble) (y : Nibble) (ign : Nibble) : Statement (.sneReg x y ign) := Decode.opOf_formatXYN ..

theorem ldI (nnn : Addr12) : Statement (.ldI nnn) := Decode.opOf_formatNNN ..

theorem jpV0 (nnn : Addr12) : Statement (.jpV0 nnn) := Decode.opOf_formatNNN ..

theorem rnd (x : Nibble) (kk : Byte) : Statement (.rnd x kk) := Decode.opOf_formatXKK ..

theorem drw (x : Nibble) (y : Nibble) (n : Nibble) : Statement (.drw x y n) := Decode.opOf_formatXYN ..

theorem skp (x : Nibble) : Statement (.skp x) := Decode.opOf_formatXKK ..

theorem sknp (x : Nibble) : Statement (.sknp x) := Decode.opOf_formatXKK ..

theorem ldVxDt (x : Nibble) : Statement (.ldVxDt x) := Decode.opOf_formatXKK ..

theorem ldVxK (x : Nibble) : Statement (.ldVxK x) := Decode.opOf_formatXKK ..

theorem ldDtVx (x : Nibble) : Statement (.ldDtVx x) := Decode.opOf_formatXKK ..

theorem ldStVx (x : Nibble) : Statement (.ldStVx x) := Decode.opOf_formatXKK ..

theorem addI (x : Nibble) : Statement (.addI x) := Decode.opOf_formatXKK ..

theorem ldF (x : Nibble) : Statement (.ldF x) := Decode.opOf_formatXKK ..

theorem ldB (x : Nibble) : Statement (.ldB x) := Decode.opOf_formatXKK ..

theorem storeRegs (x : Nibble) : Statement (.storeRegs x) := Decode.opOf_formatXKK ..

theorem loadRegs (x : Nibble) : Statement (.loadRegs x) := Decode.opOf_formatXKK ..

end Sys2Proof.Laws.Family
end

