-- ==== Sys2Proof/Tests/Slice0.lean ====
section
/-! SUPPORT. Tests. Expected results are those of 95_test_vectors.md (its row is named: T, A, M, G, K, X, Z, S) or
are worked out by hand from the rule named. Each runs at most one step on a small change of the reset state. -/

namespace Sys2Proof.Tests

open Sys2Proof.Machine

/-! ## Helpers -/

/-- The state after reset. -/
abbrev r : State := State.reset

/-- The next state of an outcome. -/
def nextState (o : Host.Outcome State Fault Refusal) : Option State :=
  match o with
  | .next t => some t
  | .fault _ => none
  | .refused _ => none

/-- The state after the word w has been placed at the pc of s and run. -/
def after (w : Nat) (s : State) : Option State := nextState (step (s.withFetchWord 16 w))

/-- The state after one event. -/
def afterEvent (e : HostEvent) (s : State) : Option State := nextState (step { s with schedule := [e] })

/-- Register x of an optional state. -/
def vOf (x : Nibble) (s : Option State) : Option Byte := s.map (State.getV · x)

/-- The fault recorded in an optional state. -/
def faultOf? (s : Option State) : Option FaultRecord := s.bind State.fault

/-- The columns set in one row. -/
def litColumns (fb : Display) (py : Fin 32) : List Nat :=
  ((List.finRange 64).filter fun px => pixel fb px py).map Fin.val

/-- Memory of the reset state with bytes stored from an address on. -/
def withBytes (a : Nat) (bs : List Byte) (s : State) : State := { s with mem := s.mem.writeImage a bs }

/-! ## WellFormed: an ill-formed term for each check (30_encoding.md R73) -/

theorem test_wellFormed_refuses :
    (Instr.seReg 0x1 0x2 0x7).wellFormed = false ∧ (Instr.sneReg 0x1 0x2 0x1).wellFormed = false ∧
    (Instr.shr 0x1 0x2).wellFormed = false ∧ (Instr.shl 0x1 0xF).wellFormed = false := by decide

theorem test_wellFormed_accepts :
    (Instr.seReg 0x1 0x2 0x0).wellFormed = true ∧ (Instr.shr 0x1 0x0).wellFormed = true ∧
    (Instr.drw 0xF 0xF 0xF).wellFormed = true := by decide

/-! ## Decode and encode: one word per constructor, written bit by bit from 30_encoding.md R62 to R68 -/

theorem test_word_cls : decodeWord 0b0000000011100000 = .ok .cls ∧ encode .cls = 0b0000000011100000 := ⟨rfl, rfl⟩
theorem test_word_ret : decodeWord 0b0000000011101110 = .ok .ret ∧ encode .ret = 0b0000000011101110 := ⟨rfl, rfl⟩
theorem test_word_jp :
    decodeWord 0b0001101010111100 = .ok (.jp 0xABC) ∧ encode (.jp 0xABC) = 0b0001101010111100 := ⟨rfl, rfl⟩
theorem test_word_call :
    decodeWord 0b0010101010111100 = .ok (.call 0xABC) ∧ encode (.call 0xABC) = 0b0010101010111100 := ⟨rfl, rfl⟩
theorem test_word_seImm :
    decodeWord 0b0011000101000010 = .ok (.seImm 1 0x42) ∧ encode (.seImm 1 0x42) = 0b0011000101000010 := ⟨rfl, rfl⟩
theorem test_word_sneImm :
    decodeWord 0b0100001100001000 = .ok (.sneImm 3 8) ∧ encode (.sneImm 3 8) = 0b0100001100001000 := ⟨rfl, rfl⟩
theorem test_word_seReg :
    decodeWord 0b0101000100100111 = .ok (.seReg 1 2 7) ∧ encode (.seReg 1 2 7) = 0b0101000100100111 := ⟨rfl, rfl⟩
theorem test_word_ldImm :
    decodeWord 0b0110101001010101 = .ok (.ldImm 10 0x55) ∧ encode (.ldImm 10 0x55) = 0b0110101001010101 :=
  ⟨rfl, rfl⟩
theorem test_word_addImm :
    decodeWord 0b0111000100100010 = .ok (.addImm 1 0x22) ∧ encode (.addImm 1 0x22) = 0b0111000100100010 :=
  ⟨rfl, rfl⟩
theorem test_word_ldReg :
    decodeWord 0b1000101011110000 = .ok (.ldReg 10 15) ∧ encode (.ldReg 10 15) = 0b1000101011110000 := ⟨rfl, rfl⟩
theorem test_word_orReg :
    decodeWord 0b1000000100100001 = .ok (.orReg 1 2) ∧ encode (.orReg 1 2) = 0b1000000100100001 := ⟨rfl, rfl⟩
theorem test_word_andReg :
    decodeWord 0b1000000100100010 = .ok (.andReg 1 2) ∧ encode (.andReg 1 2) = 0b1000000100100010 := ⟨rfl, rfl⟩
theorem test_word_xorReg :
    decodeWord 0b1000000100100011 = .ok (.xorReg 1 2) ∧ encode (.xorReg 1 2) = 0b1000000100100011 := ⟨rfl, rfl⟩
theorem test_word_addReg :
    decodeWord 0b1000000100100100 = .ok (.addReg 1 2) ∧ encode (.addReg 1 2) = 0b1000000100100100 := ⟨rfl, rfl⟩
theorem test_word_subReg :
    decodeWord 0b1000000100100101 = .ok (.subReg 1 2) ∧ encode (.subReg 1 2) = 0b1000000100100101 := ⟨rfl, rfl⟩
theorem test_word_shr :
    decodeWord 0b1000000100100110 = .ok (.shr 1 2) ∧ encode (.shr 1 2) = 0b1000000100100110 := ⟨rfl, rfl⟩
theorem test_word_subnReg :
    decodeWord 0b1000000100100111 = .ok (.subnReg 1 2) ∧ encode (.subnReg 1 2) = 0b1000000100100111 := ⟨rfl, rfl⟩
theorem test_word_shl :
    decodeWord 0b1000000100101110 = .ok (.shl 1 2) ∧ encode (.shl 1 2) = 0b1000000100101110 := ⟨rfl, rfl⟩
theorem test_word_sneReg :
    decodeWord 0b1001101010111111 = .ok (.sneReg 10 11 15) ∧ encode (.sneReg 10 11 15) = 0b1001101010111111 :=
  ⟨rfl, rfl⟩
theorem test_word_ldI :
    decodeWord 0b1010111111111111 = .ok (.ldI 0xFFF) ∧ encode (.ldI 0xFFF) = 0b1010111111111111 := ⟨rfl, rfl⟩
theorem test_word_jpV0 :
    decodeWord 0b1011001100000000 = .ok (.jpV0 0x300) ∧ encode (.jpV0 0x300) = 0b1011001100000000 := ⟨rfl, rfl⟩
theorem test_word_rnd :
    decodeWord 0b1100001100001111 = .ok (.rnd 3 0x0F) ∧ encode (.rnd 3 0x0F) = 0b1100001100001111 := ⟨rfl, rfl⟩
theorem test_word_drw :
    decodeWord 0b1101000000010101 = .ok (.drw 0 1 5) ∧ encode (.drw 0 1 5) = 0b1101000000010101 := ⟨rfl, rfl⟩
theorem test_word_skp :
    decodeWord 0b1110010010011110 = .ok (.skp 4) ∧ encode (.skp 4) = 0b1110010010011110 := ⟨rfl, rfl⟩
theorem test_word_sknp :
    decodeWord 0b1110010010100001 = .ok (.sknp 4) ∧ encode (.sknp 4) = 0b1110010010100001 := ⟨rfl, rfl⟩
theorem test_word_ldVxDt :
    decodeWord 0b1111010100000111 = .ok (.ldVxDt 5) ∧ encode (.ldVxDt 5) = 0b1111010100000111 := ⟨rfl, rfl⟩
theorem test_word_ldVxK :
    decodeWord 0b1111001100001010 = .ok (.ldVxK 3) ∧ encode (.ldVxK 3) = 0b1111001100001010 := ⟨rfl, rfl⟩
theorem test_word_ldDtVx :
    decodeWord 0b1111010100010101 = .ok (.ldDtVx 5) ∧ encode (.ldDtVx 5) = 0b1111010100010101 := ⟨rfl, rfl⟩
theorem test_word_ldStVx :
    decodeWord 0b1111011000011000 = .ok (.ldStVx 6) ∧ encode (.ldStVx 6) = 0b1111011000011000 := ⟨rfl, rfl⟩
theorem test_word_addI :
    decodeWord 0b1111001000011110 = .ok (.addI 2) ∧ encode (.addI 2) = 0b1111001000011110 := ⟨rfl, rfl⟩
theorem test_word_ldF :
    decodeWord 0b1111000000101001 = .ok (.ldF 0) ∧ encode (.ldF 0) = 0b1111000000101001 := ⟨rfl, rfl⟩
theorem test_word_ldB :
    decodeWord 0b1111001100110011 = .ok (.ldB 3) ∧ encode (.ldB 3) = 0b1111001100110011 := ⟨rfl, rfl⟩
theorem test_word_storeRegs :
    decodeWord 0b1111010101010101 = .ok (.storeRegs 5) ∧ encode (.storeRegs 5) = 0b1111010101010101 := ⟨rfl, rfl⟩
theorem test_word_loadRegs :
    decodeWord 0b1111010101100101 = .ok (.loadRegs 5) ∧ encode (.loadRegs 5) = 0b1111010101100101 := ⟨rfl, rfl⟩

/-- X1 to X5: family 0. -/
theorem test_unsupported_family0 :
    decodeWord 0x0000 = .error .family0 ∧ decodeWord 0x0123 = .error .family0 ∧
    decodeWord 0x00E1 = .error .family0 ∧ decodeWord 0x00FE = .error .family0 ∧
    decodeWord 0x01E0 = .error .family0 := ⟨rfl, rfl, rfl, rfl, rfl⟩

/-- X6 to X9: families 8 and E. -/
theorem test_unsupported_families8E :
    decodeWord 0x8128 = .error .family8 ∧ decodeWord 0x812F = .error .family8 ∧
    decodeWord 0xE19F = .error .familyE ∧ decodeWord 0xE100 = .error .familyE := ⟨rfl, rfl, rfl, rfl⟩

/-- X10 to X16: family F. -/
theorem test_unsupported_familyF :
    decodeWord 0xF100 = .error .familyF ∧ decodeWord 0xF1FF = .error .familyF ∧
    decodeWord 0xF175 = .error .familyF ∧ decodeWord 0xF185 = .error .familyF ∧
    decodeWord 0xF130 = .error .familyF ∧ decodeWord 0xF102 = .error .familyF ∧
    decodeWord 0xFFFF = .error .familyF := ⟨rfl, rfl, rfl, rfl, rfl, rfl, rfl⟩

theorem test_decodeTableWord :
    decodeTableWord 16 0x8124 = some (.addReg 1 2) ∧ decodeTableWord 16 0x00EE = some .ret ∧
    decodeTableWord 16 0x8128 = none := by decide

/-! ## Control transfer -/

/-- S2, T1. -/
theorem test_ret :
    (after 0x00EE { r with sp := 3, stack := ((r.stack.set 0 0x10).set 1 0x10).set 2 0x11 }).map
      (fun t => (t.pc, t.sp)) = some (0x0011, 2) := by decide

/-- T2. -/
theorem test_ret_underflow :
    faultOf? (after 0x00EE r) = some ⟨.stackUnderflow, some 0x00EE, 0x200, none⟩ := by decide

/-- T3. -/
theorem test_call :
    (after 0x2ABC { r with sp := 15, pc := 0x2F0 }).map (fun t => (t.pc, t.sp, t.stack[15])) =
      some (0x0ABC, 16, 0x02F2) := by decide

/-- T4. -/
theorem test_call_overflow :
    (after 0x2ABC { r with sp := 16, pc := 0x2F0 }).map (fun t => (t.pc, t.run, t.fault)) =
      some (0x02F2, .faulted, some ⟨.stackOverflow, some 0x2ABC, 0x2F0, none⟩) := by decide

/-- T5. -/
theorem test_jp : (after 0x1FFF r).map (fun t => (t.pc, t.run)) = some (0x0FFF, .running) := by decide

/-- T6. -/
theorem test_jpV0_passes_12_bits : (after 0xBFFF (r.setV 0 0x02)).map State.pc = some 0x1001 := by decide

/-- T8. -/
theorem test_jpV0 : (after 0xB300 (r.setV 0 0x04)).map State.pc = some 0x0304 := by decide

/-- T9. -/
theorem test_seImm_skips : (after 0x3F01 (r.setV 0xF 0x01)).map State.pc = some 0x0204 := by decide

/-- T19: the skip past the memory is no fault. -/
theorem test_seImm_at_the_top : (after 0x3100 { r with pc := 0xFFC }).map (fun t => (t.pc, t.run)) =
    some (0x1000, .running) := by decide

/-- T13. -/
theorem test_sneImm_skips : (after 0x4308 { r.setV 3 0x07 with pc := 0x300 }).map State.pc = some 0x0304 := by decide

/-- T10. -/
theorem test_sneImm_stays : (after 0x4F01 (r.setV 0xF 0x01)).map State.pc = some 0x0202 := by decide

/-- T15. -/
theorem test_seReg_ignores_low_nibble :
    (after 0x5127 ((r.setV 1 0x09).setV 2 0x09)).map State.pc = some 0x0204 := by decide

/-- T16. -/
theorem test_seReg_stays : (after 0x5120 ((r.setV 1 0x09).setV 2 0x08)).map State.pc = some 0x0202 := by decide

/-- T17. -/
theorem test_sneReg_same_register : (after 0x9AAF (r.setV 0xA 0x03)).map State.pc = some 0x0202 := by decide

/-- T18. -/
theorem test_sneReg_skips : (after 0x9120 ((r.setV 1 0x01).setV 2 0x02)).map State.pc = some 0x0204 := by decide

/-! ## Fetch -/

/-- T20: a fetch that begins on the last byte. -/
theorem test_fetch_fault :
    (nextState (step { r with pc := 0xFFF })).map (fun t => (t.pc, t.run, t.fault)) =
      some (0x0FFF, .faulted, some ⟨.outOfBounds, none, 0xFFF, some 0x1000⟩) := by decide

/-- T21: the last fetchable address. -/
theorem test_fetch_last : (nextState (step (withBytes 0xFFE [0x12, 0x00] { r with pc := 0xFFE }))).map State.pc =
    some 0x0200 := by decide

/-- T22: an odd address. -/
theorem test_fetch_odd : (after 0x6A55 { r with pc := 0x201 }).map (fun t => (t.getV 0xA, t.pc)) =
    some (0x55, 0x0203) := by decide

/-- X2, S10: only the diagnostic and the advance. -/
theorem test_unsupported_step :
    after 0x0123 r = some { r.withFetchWord 16 0x0123 with pc := 0x202, diags := [⟨0x0123, 0x200⟩], started := true } := by
  decide

/-! ## Load, arithmetic and logic -/

/-- A27. -/
theorem test_ldImm : vOf 0xF (after 0x6FAB r) = some 0xAB := by decide

/-- A24: the immediate add wraps and writes no flag. -/
theorem test_addImm_no_flag : (after 0x7122 (r.setV 1 0xFF)).map (fun t => (t.getV 1, t.getV 0xF)) =
    some (0x21, 0x00) := by decide

/-- A28. -/
theorem test_ldReg : vOf 0xA (after 0x8AF0 (r.setV 0xF 0x01)) = some 0x01 := by decide

/-- A20. -/
theorem test_orReg : (after 0x8121 (((r.setV 1 0xF0).setV 2 0x0F).setV 0xF 1)).map
    (fun t => (t.getV 1, t.getV 0xF)) = some (0xFF, 1) := by decide

/-- A21. -/
theorem test_andReg : (after 0x8122 (((r.setV 1 0xF0).setV 2 0x3C).setV 0xF 1)).map
    (fun t => (t.getV 1, t.getV 0xF)) = some (0x30, 1) := by decide

/-- A22. -/
theorem test_xorReg : (after 0x8123 (((r.setV 1 0xF0).setV 2 0x3C).setV 0xF 1)).map
    (fun t => (t.getV 1, t.getV 0xF)) = some (0xCC, 1) := by decide

/-- A23. -/
theorem test_xorReg_same : vOf 1 (after 0x8113 (r.setV 1 0xF0)) = some 0x00 := by decide

/-- S3, A1. -/
theorem test_addReg_carry : (after 0x8124 ((r.setV 1 0xFF).setV 2 0x22)).map
    (fun t => (t.getV 1, t.getV 0xF)) = some (0x21, 1) := by decide

/-- A5: with x = 15 the sum stays. -/
theorem test_addReg_into_vf : vOf 0xF (after 0x8F14 ((r.setV 0xF 0xFF).setV 1 0x03)) = some 0x02 := by decide

/-- S4, A8. -/
theorem test_subReg_borrow : (after 0x8125 (((r.setV 1 0x11).setV 2 0x22).setV 0xF 1)).map
    (fun t => (t.getV 1, t.getV 0xF)) = some (0xEF, 0) := by decide

/-- A9: the comparison is strict. -/
theorem test_subReg_equal : (after 0x8125 (((r.setV 1 0x33).setV 2 0x33).setV 0xF 1)).map
    (fun t => (t.getV 1, t.getV 0xF)) = some (0x00, 0) := by decide

/-- S5, A14: the y field is ignored. -/
theorem test_shr : (after 0x8126 ((r.setV 1 0x09).setV 2 0xFF)).map
    (fun t => (t.getV 1, t.getV 2, t.getV 0xF)) = some (0x04, 0xFF, 1) := by decide

/-- A16. -/
theorem test_shr_into_vf : vOf 0xF (after 0x8F06 (r.setV 0xF 0x05)) = some 0x02 := by decide

/-- A11. -/
theorem test_subnReg : (after 0x8127 ((r.setV 1 0x11).setV 2 0x22)).map
    (fun t => (t.getV 1, t.getV 0xF)) = some (0x11, 1) := by decide

/-- A13. -/
theorem test_subnReg_equal : (after 0x8127 (((r.setV 1 0x33).setV 2 0x33).setV 0xF 1)).map
    (fun t => (t.getV 1, t.getV 0xF)) = some (0x00, 0) := by decide

/-- A17. -/
theorem test_shl : (after 0x812E ((r.setV 1 0x80).setV 2 0x01)).map
    (fun t => (t.getV 1, t.getV 2, t.getV 0xF)) = some (0x00, 0x01, 1) := by decide

/-- A18. -/
theorem test_shl_no_carry : (after 0x812E ((r.setV 1 0x7F).setV 0xF 1)).map
    (fun t => (t.getV 1, t.getV 0xF)) = some (0xFE, 0) := by decide

/-- A30: mask 0 gives 0 for every draw; the draw is counted. -/
theorem test_rnd_masked : ∃ t, after 0xC300 (r.setV 3 0x55) = some t ∧ t.getV 3 = Config.draw8 0 &&& 0x00 ∧
    t.draws = 1 := ⟨_, rfl, rfl, rfl⟩

/-! ## Address register and memory -/

/-- M1. -/
theorem test_ldI : (after 0xAFFF r).map State.iReg = some 0x0FFF := by decide

/-- M3: 16-bit wrap. -/
theorem test_addI_wraps : (after 0xF21E { r.setV 2 0x02 with iReg := 0xFFFF }).map State.iReg = some 0x0001 := by
  decide

/-- M4: no 12-bit mask, no flag. -/
theorem test_addI_no_mask : (after 0xF21E { r.setV 2 0x01 with iReg := 0x0FFF }).map
    (fun t => (t.iReg, t.getV 0xF)) = some (0x1000, 0) := by decide

/-- M5. -/
theorem test_ldF : (after 0xF029 (r.setV 0 0x0A)).map State.iReg = some 0x0032 := by decide

/-- M6: the whole byte. -/
theorem test_ldF_whole_byte : (after 0xF029 (r.setV 0 0xFF)).map State.iReg = some 0x04FB := by decide

/-- S7, M8. -/
theorem test_ldB : (after 0xF333 { r.setV 3 134 with iReg := 0x300 }).map
    (fun t => [0x300, 0x301, 0x302].map t.mem.read) = some [1, 3, 4] := by decide

/-- M11: what fits is kept. -/
theorem test_ldB_fault : (after 0xF333 (withBytes 0xFFE [7, 7] { r.setV 3 134 with iReg := 0xFFE })).map
    (fun t => ([0xFFE, 0xFFF].map t.mem.read, t.fault)) =
      some ([1, 3], some ⟨.outOfBounds, some 0xF333, 0x200, some 0x1000⟩) := by decide

/-- V0..V5 = 0..5, V6 = 0x66, as in S8. -/
def fiveUp : State := ((((((r.setV 1 1).setV 2 2).setV 3 3).setV 4 4).setV 5 5).setV 6 0x66)

/-- S8, M13. -/
theorem test_storeRegs : (after 0xF555 { fiveUp with iReg := 0x400 }).map
    (fun t => ([0x400, 0x401, 0x402, 0x403, 0x404, 0x405, 0x406].map t.mem.read, t.iReg)) =
      some ([0, 1, 2, 3, 4, 5, 0], 0x400) := by decide

/-- M20: the store overwrites its own first byte. -/
theorem test_storeRegs_self : (after 0xF055 { r.setV 0 0x12 with iReg := 0x200 }).map
    (fun t => t.mem.read 0x200) = some 0x12 := by decide

/-- M14. -/
theorem test_loadRegs : (after 0xF565 (withBytes 0x400 [0, 1, 2, 3, 4, 5, 0x77]
      { r.setV 6 0x66 with iReg := 0x400 })).map
    (fun t => (t.getV 0, t.getV 1, t.getV 4, t.getV 5, t.getV 6, t.iReg)) = some (0, 1, 4, 5, 0x66, 0x400) := by decide

/-- M16: what was loaded before the fault is kept. -/
theorem test_loadRegs_fault : (after 0xF365 (withBytes 0xFFE [0xB0, 0xB1]
      { ((r.setV 0 1).setV 1 2).setV 2 3 with iReg := 0xFFE })).map
    (fun t => (t.getV 0, t.getV 1, t.getV 2, t.fault.isSome)) = some (0xB0, 0xB1, 3, true) := by decide

/-! ## Display -/

/-- G12. -/
theorem test_cls : (after 0x00E0 { r.setV 0xF 1 with fb := togglePixel (togglePixel r.fb 0 0) 63 31 }).map
    (fun t => (litColumns t.fb 0, litColumns t.fb 31, t.getV 0xF)) = some ([], [], 1) := by decide

/-- G3: the columns wrap inside one row. -/
theorem test_drw_wraps : (after 0xD011 (withBytes 0x300 [0xFF]
      { (r.setV 0 62).setV 1 30 with iReg := 0x300 })).map
    (fun t => (litColumns t.fb 30, litColumns t.fb 31, t.getV 0xF)) =
      some ([0, 1, 2, 3, 4, 5, 62, 63], [], 0) := by decide

/-- G2, its first two rows: a set pixel under a 1 bit is unset, and VF is 1. -/
theorem test_drw_collides : (after 0xD002 { r with fb := togglePixel (togglePixel r.fb 0 0) 5 5 }).map
    (fun t => (litColumns t.fb 0, litColumns t.fb 1, litColumns t.fb 5, t.getV 0xF)) =
      some ([1, 2, 3], [0, 3], [5], 1) := by decide

/-! ## Keypad and timers -/

/-- K1. -/
theorem test_skp : (after 0xE49E { r.setV 4 5 with key := r.key.set 5 true, pc := 0x220 }).map State.pc =
    some 0x224 := by decide

/-- K5. -/
theorem test_skp_fault : (after 0xE49E { r.setV 4 0x10 with pc := 0x220 }).map (fun t => (t.pc, t.fault)) =
    some (0x222, some ⟨.outOfBounds, some 0xE49E, 0x220, some 0x10⟩) := by decide

/-- K3. -/
theorem test_sknp : (after 0xE4A1 { r.setV 4 5 with pc := 0x220 }).map State.pc = some 0x224 := by decide

/-- K4. -/
theorem test_sknp_stays : (after 0xE4A1 { r.setV 4 5 with key := r.key.set 5 true, pc := 0x220 }).map State.pc =
    some 0x222 := by decide

/-- K8. -/
theorem test_ldVxDt : vOf 5 (after 0xF507 { r with dt := 0x3C }) = some 0x3C := by decide

/-- K9. -/
theorem test_ldDtVx : (after 0xF515 (r.setV 5 0x3C)).map State.dt = some 0x3C := by decide

/-- K10. -/
theorem test_ldStVx : (after 0xF618 (r.setV 6 0x0A)).map (fun t => (t.st, t.soundActive)) = some (0x0A, true) := by
  decide

/-- K12: a held key does not end the wait. -/
theorem test_ldVxK : (after 0xF30A { r with key := r.key.set 2 true, pc := 0x230 }).map
    (fun t => (t.run, t.waitX, t.pc)) = some (.waitKey, 3, 0x232) := by decide

/-! ## Host events -/

/-- K12, K13: the key-down ends the wait. -/
theorem test_keyDown_ends_wait : (afterEvent (.keyDown 7) { r with run := .waitKey, waitX := 3 }).map
    (fun t => (t.getV 3, t.key[7], t.run)) = some (7, true, .running) := by decide

/-- K12: a code of 16 is refused with no effect. -/
theorem test_keyDown_16 : (afterEvent (.keyDown 16) { r with run := .waitKey, waitX := 3 }).map State.run =
    some .waitKey := by decide

/-- K11. -/
theorem test_tick : (afterEvent .tick { r with dt := 2 }).map (fun t => (t.dt, t.st)) = some (1, 0) := by decide

/-- K15: Tick in FAULTED. -/
theorem test_tick_faulted : (afterEvent .tick { r with dt := 5, run := .faulted }).map (fun t => (t.dt, t.run)) =
    some (4, .faulted) := by decide

/-- A key map with one host key in two slots. -/
def twice : KeyMap := ((Vector.ofFn fun i => 100 + i.val).set 3 7).set 9 7

/-- S9: the first slot of two wins, and an unmapped code is not found. -/
theorem test_virtualCodeOf :
    virtualCodeOf twice 7 = some 3 ∧
    virtualCodeOf (Vector.ofFn fun i => 100 + i.val) 107 = some 7 ∧
    virtualCodeOf (Vector.ofFn fun i => 100 + i.val) 99 = none := by decide

/-- Z1. -/
theorem test_reset_event : afterEvent .reset { (r.setV 3 9) with run := .faulted, sp := 4, mem := [(0x300, 1)] } =
    some r := by decide

/-- R222: a second table of one start-up, and a table after a Tick, are refused. -/
theorem test_set_mapping_once :
    (afterEvent (.setMapping twice) r).map State.keyMap = some (some twice) ∧
    (afterEvent (.setMapping twice) (r.setMapping twice)).isNone ∧
    ((afterEvent .tick r).bind (afterEvent (.setMapping twice))).isNone := by decide

/-- R222: a load after a key event is refused. -/
theorem test_load_after_key : ((afterEvent (.keyDown 3) r).bind (afterEvent (.load [0x12]))).isNone := by decide

/-- R224: byte j of the image goes to 0x200 + j. -/
theorem test_load : (afterEvent (.load [0x12, 0x34]) r).map (fun t => (t.mem.read 0x200, t.mem.read 0x201)) =
    some (0x12, 0x34) := by decide

/-- R31: the first and the last glyph, and the byte after. -/
theorem test_font : ([0, 1, 2, 3, 4].map r.mem.read = [0xF0, 0x90, 0x90, 0x90, 0xF0]) ∧
    ([0x4B, 0x4C, 0x4D, 0x4E, 0x4F, 0x50].map r.mem.read = [0xF0, 0x80, 0xF0, 0x80, 0x80, 0x00]) := by decide

/-! ## Witnesses: for each statement with hypotheses, states and operands that meet them, at the boundaries -/

/-- EncodeOfDecodeIsTheWord. -/
theorem test_witness_encodeOfDecode : decodeWord 0xFF65 = .ok (.loadRegs 15) ∧ decodeWord 0x8FF6 = .ok (.shr 15 15) :=
  ⟨rfl, rfl⟩

/-- UnsupportedWordsAreExactlyThese: each side, each family. -/
theorem test_witness_unsupportedWords :
    (0x0FFF / 0x1000 = 0x0 ∧ (0x0FFF : Word) ≠ 0x00E0 ∧ (0x0FFF : Word) ≠ 0x00EE) ∧
    (0x8FFF / 0x1000 = 0x8 ∧ 0x8FFF % 0x10 ∈ [0x8, 0x9, 0xA, 0xB, 0xC, 0xD, 0xF]) ∧
    (0xEFA0 / 0x1000 = 0xE ∧ 0xEFA0 % 0x100 ∉ [0x9E, 0xA1]) ∧
    (0xF066 / 0x1000 = 0xF ∧ 0xF066 % 0x100 ∉ [0x07, 0x0A, 0x15, 0x18, 0x1E, 0x29, 0x33, 0x55, 0x65]) ∧
    decodeWord 0x0FFF = .error .family0 ∧ decodeWord 0x8FFF = .error .family8 ∧
    decodeWord 0xEFA0 = .error .familyE ∧ decodeWord 0xF066 = .error .familyF :=
  ⟨by decide, by decide, by decide, by decide, rfl, rfl, rfl, rfl⟩

/-- A running state with the pc on the last fetchable address, and `1200` there (T21). -/
def lastFetch : State := withBytes 0xFFE [0x12, 0x00] { r with pc := 0xFFE }

/-- StepRunsTheDecodedInstruction, both clauses, with the pc at 0xFFE. -/
theorem test_witness_stepRuns : lastFetch.run = .running ∧ lastFetch.pc.toNat + 1 < 4096 ∧ lastFetch.schedule = [] ∧
    ({ lastFetch with schedule := [.step, .tick] }).schedule = .step :: [.tick] ∧
    decodeBytes [lastFetch.mem.read lastFetch.pc.toNat, lastFetch.mem.read (lastFetch.pc.toNat + 1)] =
      .ok (.jp 0x200, []) := ⟨by decide, by decide, by decide, by decide, rfl⟩

/-- StepTakesTheNextHostEvent: a Tick first, and none. -/
theorem test_witness_nextEvent : ({ r with schedule := [.tick, .step] }).schedule = .tick :: [.step] ∧ r.schedule = [] := by
  decide

/-- FetchOutsideMemoryFaults: 0xFFF, and the first address outside; both clauses. -/
theorem test_witness_fetchOutside :
    r.run = .running ∧ 0xFFF ≤ ({ r with pc := 0xFFF }).pc.toNat ∧ 0xFFF ≤ ({ r with pc := 0x1000 }).pc.toNat ∧
    r.schedule = [] ∧ ({ r with schedule := [.step, .tick] }).schedule = .step :: [.tick] := by decide

/-- UnsupportedWordOnlyReports: the zeroed memory after reset, and the last fetchable address; both clauses. -/
theorem test_witness_unsupportedReports :
    r.run = .running ∧ r.pc.toNat + 1 < 4096 ∧ (0xFFE : Word).toNat + 1 < 4096 ∧ r.schedule = [] ∧
    ({ r with schedule := [.step] }).schedule = .step :: [] ∧
    decodeBytes [r.mem.read 0x200, r.mem.read 0x201] = .error .family0 ∧
    decodeBytes [r.mem.read 0xFFE, r.mem.read 0xFFF] = .error .family0 :=
  ⟨by decide, by decide, by decide, by decide, by decide, rfl, rfl⟩

/-- SelfJumpEndsTheRun: `120E` at 0x20E (the end of P2), and a jump to itself at the last fetchable address. -/
theorem test_witness_endOfRun :
    (withBytes 0x20E [0x12, 0x0E] { r with pc := 0x20E }).EndOfRun ∧
    (withBytes 0xFFE [0x1F, 0xFE] { r with pc := 0xFFE, schedule := [.step] }).EndOfRun :=
  ⟨⟨by decide, by decide, by decide⟩, by decide, by decide, by decide⟩

/-- R226: the next word of P2 is no end, and neither is FAULTED. -/
theorem test_no_endOfRun :
    ¬ (withBytes 0x20E [0x12, 0x10] { r with pc := 0x20E }).EndOfRun ∧
    ¬ (withBytes 0x20E [0x12, 0x0E] { r with pc := 0x20E, run := .faulted }).EndOfRun :=
  ⟨fun h => absurd h.2.2 (by decide), fun h => absurd h.1 (by decide)⟩

/-- StepHasNoEffectWhileHeld: both held states, both clauses. -/
theorem test_witness_held :
    ({ r with run := .waitKey }).run ≠ .running ∧ ({ r with run := .faulted }).run ≠ .running ∧ r.schedule = [] ∧
    ({ r with run := .faulted, schedule := [.step] }).schedule = .step :: [] := by decide

/-- RetPopsTheReturnAddress: SP 1 and 16, and SP 0. -/
theorem test_witness_ret :
    0 < ({ r with sp := 1 }).sp.toNat ∧ r.stack[({ r with sp := 1 }).sp.toNat - 1]? = some 0 ∧
    0 < ({ r with sp := 16 }).sp.toNat ∧ (r.stack.set 15 0x2F2)[({ r with sp := 16 }).sp.toNat - 1]? = some 0x2F2 ∧
    r.sp.toNat = 0 := by decide

/-- CallPushesTheNextAddress: SP 0 and 15, and SP 16. -/
theorem test_witness_call :
    (0x2FFF : Word).extractLsb' 12 4 = 0x2#4 ∧ r.sp.toNat < 16 ∧ ({ r with sp := 15 }).sp.toNat < 16 ∧
    ({ r with sp := 16 }).sp.toNat = 16 := by decide

/-- JumpsGoToTheirTargets, SkipsPassOneWord: the words. -/
theorem test_witness_transferWords :
    (0x1FFF : Word).extractLsb' 12 4 = 0x1#4 ∧ (0xBFFF : Word).extractLsb' 12 4 = 0xB#4 ∧
    (0x3FFF : Word).extractLsb' 12 4 = 0x3#4 ∧ (0x4FFF : Word).extractLsb' 12 4 = 0x4#4 ∧
    (0x5FFF : Word).extractLsb' 12 4 = 0x5#4 ∧ (0x9FFF : Word).extractLsb' 12 4 = 0x9#4 := by decide

/-- RetResumesAfterItsCall: with SP 0 and 15; the subroutine has changed V0, I and the pc. -/
theorem test_witness_retResumes :
    (r.sp.toNat < 16 ∧ ∃ t, exec (.call 0x300) r = .next t ∧
      ({ t.setV 0 7 with iReg := 9, pc := 0x302 } : State).sp = t.sp ∧
      ({ t.setV 0 7 with iReg := 9, pc := 0x302 } : State).stack = t.stack) ∧
    (({ r with sp := 15 } : State).sp.toNat < 16 ∧ ∃ t, exec (.call 0xFFF) { r with sp := 15 } = .next t) :=
  ⟨⟨by decide, _, rfl, rfl, rfl⟩, by decide, _, rfl⟩

/-- CallAndRetStopOnAnIllegalStackPointer: 17 and 255. -/
theorem test_witness_illegalSp : 16 < ({ r with sp := 17 }).sp.toNat ∧ 16 < ({ r with sp := 255 }).sp.toNat := by decide

/-- The words of the load, arithmetic and logic statements. -/
theorem test_witness_aluWords :
    (0x6FFF : Word).extractLsb' 12 4 = 0x6#4 ∧ (0x7FFF : Word).extractLsb' 12 4 = 0x7#4 ∧
    (0x8FF0 : Word).extractLsb' 12 4 = 0x8#4 ∧ (0x8FF0 : Word).extractLsb' 0 4 = 0x0#4 ∧
    (0x8FF1 : Word).extractLsb' 0 4 = 0x1#4 ∧ (0x8FF2 : Word).extractLsb' 0 4 = 0x2#4 ∧
    (0x8FF3 : Word).extractLsb' 0 4 = 0x3#4 ∧ (0x8FF4 : Word).extractLsb' 0 4 = 0x4#4 ∧
    (0x8FF5 : Word).extractLsb' 0 4 = 0x5#4 ∧ (0x8FF6 : Word).extractLsb' 0 4 = 0x6#4 ∧
    (0x8FF7 : Word).extractLsb' 0 4 = 0x7#4 ∧ (0x8FFE : Word).extractLsb' 0 4 = 0xE#4 ∧
    (0xCFFF : Word).extractLsb' 12 4 = 0xC#4 := by decide

/-- The flags' clauses, at both sides of each comparison: the sums 255 and 256, the pairs 3 and 2, 2 and 2. -/
theorem test_witness_flags :
    ¬ 255 < (r.setV 1 0xFF |>.getV 1).toNat + (r.getV 2).toNat ∧
    255 < ((r.setV 1 0xFF).getV 1).toNat + (((r.setV 1 0xFF).setV 2 1).getV 2).toNat ∧
    (2 : Byte).toNat < (3 : Byte).toNat ∧ ¬ (2 : Byte).toNat < (2 : Byte).toNat ∧
    (0x01 : Byte).getLsbD 0 = true ∧ (0xFE : Byte).getLsbD 0 = false ∧ (0x80 : Byte).getLsbD 7 = true ∧
    (0x7F : Byte).getLsbD 7 = false := by decide

/-- The words of the statements about I, memory, the display, the keys and the timers. -/
theorem test_witness_otherWords :
    (0xAFFF : Word).extractLsb' 12 4 = 0xA#4 ∧ (0xDFFF : Word).extractLsb' 12 4 = 0xD#4 ∧
    (0xEF9E : Word).extractLsb' 12 4 = 0xE#4 ∧ (0xEF9E : Word).extractLsb' 0 8 = 0x9E#8 ∧
    (0xEFA1 : Word).extractLsb' 0 8 = 0xA1#8 ∧ (0xFF1E : Word).extractLsb' 12 4 = 0xF#4 ∧
    (0xFF1E : Word).extractLsb' 0 8 = 0x1E#8 ∧ (0xFF29 : Word).extractLsb' 0 8 = 0x29#8 ∧
    (0xFF33 : Word).extractLsb' 0 8 = 0x33#8 ∧ (0xFF55 : Word).extractLsb' 0 8 = 0x55#8 ∧
    (0xFF65 : Word).extractLsb' 0 8 = 0x65#8 ∧ (0xFF07 : Word).extractLsb' 0 8 = 0x07#8 ∧
    (0xFF15 : Word).extractLsb' 0 8 = 0x15#8 ∧ (0xFF18 : Word).extractLsb' 0 8 = 0x18#8 ∧
    (0xFF0A : Word).extractLsb' 0 8 = 0x0A#8 := by decide

/-- BcdStoresThreeDigits: I = 0xFFD fits, 0xFFE and 0xFFFF do not. -/
theorem test_witness_bcd : r.mem.wf = true ∧ (0xFFD : Word).toNat + 2 < 4096 ∧ 4096 ≤ (0xFFE : Word).toNat + 2 ∧
    4096 ≤ (0xFFFF : Word).toNat + 2 := by decide

/-- BlockStoreWritesV0ToVx, BlockLoadFillsV0ToVx: I = 0xFF0 with x = 15 fits, 0xFF1 does not; the registers
of a load that does not. -/
theorem test_witness_block : r.mem.wf = true ∧ (0xFF0 : Word).toNat + (15 : Nibble).toNat < 4096 ∧
    4096 ≤ (0xFF1 : Word).toNat + (15 : Nibble).toNat ∧
    ((14 : Nibble).toNat ≤ (15 : Nibble).toNat ∧ (0xFF1 : Word).toNat + (14 : Nibble).toNat < 4096) ∧
    ((15 : Nibble).toNat < (15 : Nibble).toNat ∨ 4096 ≤ (0xFF1 : Word).toNat + (15 : Nibble).toNat) ∧
    (2 : Nibble).toNat < (3 : Nibble).toNat := by decide

/-- BlockLoadGivesBackTheBlockStored: at I = 0xFF0 with x = 15, V0 changed in between. -/
theorem test_witness_blockRoundTrip : r.mem.wf = true ∧ ({ r with iReg := 0xFF0 }).iReg.toNat + (15 : Nibble).toNat < 4096 ∧
    ∃ t, exec (.storeRegs 15) { r with iReg := 0xFF0 } = .next t ∧ (t.setV 0 9).mem = t.mem ∧
      (t.setV 0 9).iReg = t.iReg := ⟨by decide, by decide, _, rfl, rfl, rfl⟩

/-- StoredBytesAreTheNextInstruction: `120A` stored over the next word (P7), and at the last fetchable address. -/
theorem test_witness_storedBytes :
    let s : State := { (r.setV 0 0x12).setV 1 0x0A with iReg := 0xFFE, pc := 0xFFE }
    s.mem.wf = true ∧ s.iReg.toNat + 1 < 4096 ∧ s.pc = s.iReg ∧ s.run = .running ∧ s.schedule = [] ∧
    decodeBytes [s.getV 0x0#4, s.getV 0x1#4] = .ok (.jp 0x20A, []) ∧ ∃ t, exec (.storeRegs 0x1#4) s = .next t :=
  ⟨by decide, by decide, by decide, by decide, by decide, rfl, _, rfl⟩

/-- DrwXorsTheSpriteAndReportsCollision: n = 0 anywhere, n = 15 at 0xFF1. DrwOutsideMemoryFaults: n = 15 at 0xFF2. -/
theorem test_witness_drw :
    ((0 : Nibble).toNat = 0 ∨ (0xFFFF : Word).toNat + (0 : Nibble).toNat ≤ 4096) ∧
    ((15 : Nibble).toNat = 0 ∨ (0xFF1 : Word).toNat + (15 : Nibble).toNat ≤ 4096) ∧
    (0 < (15 : Nibble).toNat ∧ 4096 < (0xFF2 : Word).toNat + (15 : Nibble).toNat) := by decide

/-- The collision's clauses: pixel (0, 0) under glyph 0 at the origin, in a display where it is set; and the empty
display, where none is. -/
theorem test_witness_collision :
    (∃ px py, pixel (togglePixel r.fb 0 0) px py = true ∧
      Claims.UnderSpriteBit { r with fb := togglePixel r.fb 0 0 } 0 1 5 px py) ∧
    ¬ ∃ px py, pixel r.fb px py = true ∧ Claims.UnderSpriteBit r 0 1 5 px py :=
  ⟨⟨0, 0, by decide, 0, 0, by decide, by decide, by decide, by decide, by decide⟩,
    fun ⟨px, py, h, _⟩ => by simp [pixel, State.reset] at h⟩

/-- DrawingTwiceRestoresTheDisplay: glyph 0 at the origin (G15). -/
theorem test_witness_drawTwice : (0 : Nibble) ≠ vf ∧ (1 : Nibble) ≠ vf ∧
    ((5 : Nibble).toNat = 0 ∨ r.iReg.toNat + (5 : Nibble).toNat ≤ 4096) ∧ ∃ t, exec (.drw 0 1 5) r = .next t :=
  ⟨by decide, by decide, by decide, _, rfl⟩

/-- KeySkipsTestTheKeyFlag: keys 0 and 15, and the values 16 and 255. -/
theorem test_witness_keySkips :
    r.key[(r.getV 4).toNat]? = some false ∧
    (r.key.set 15 true)[((r.setV 4 15).getV 4).toNat]? = some true ∧
    16 ≤ ((r.setV 4 16).getV 4).toNat ∧ 16 ≤ ((r.setV 4 255).getV 4).toNat := by decide

/-- A core that waits for a key into V3. -/
def waiting : State := { r with run := .waitKey, waitX := 3 }

/-- KeyWaitEndsWithAKeyDown: codes 0 and 15; and each event that does not end the wait. -/
theorem test_witness_keyWait : waiting.run = .waitKey ∧ (0 : Nat) < 16 ∧ (15 : Nat) < 16 ∧
    hostEvent .step waiting = .next waiting ∧ (∃ t, hostEvent .tick waiting = .next t) ∧
    (∃ t, hostEvent (.keyUp 2) waiting = .next t) ∧ ∃ t, hostEvent (.keyDown (0 + 16)) waiting = .next t :=
  ⟨by decide, by decide, by decide, rfl, ⟨_, rfl⟩, ⟨_, rfl⟩, _, rfl⟩

/-- KeyEventsSetOneFlag: codes 0, 15 and 16. -/
theorem test_witness_keyEvents : (0 : Nat) < 16 ∧ (15 : Nat) < 16 ∧ r.run ≠ .waitKey ∧ 16 ≤ (16 : Nat) := by decide

/-- KeyMapIsInstalledOnceBeforeTheStart: right after reset, with a table installed, and after the start. -/
theorem test_witness_keyMap : (r.started = false ∧ r.mapped = false) ∧
    ((r.setMapping twice).started = false ∧ (r.setMapping twice).mapped = true) ∧ r.start.started = true := by decide

/-- A faulted state that is not the reset state: StackOverflow was taken at 0x200 (T23), one byte is stored. -/
def overflown : State :=
  { r with sp := 16, pc := 0x202, stack := Vector.replicate 16 0x202, mem := [(0x200, 0x22)], run := .faulted
           fault := some ⟨.stackOverflow, some 0x2200, 0x200, none⟩, started := true }

/-- StepTickAndKeysEndTheStartUp: each of the events from the reset state, a sound event after the start, and Reset. -/
theorem test_witness_startUp : (∃ t, hostEvent .tick r = .next t) ∧ (∃ t, hostEvent (.keyDown 16) r = .next t) ∧
    (∃ t, hostEvent (.keyUp 15) r = .next t) ∧ (r.run = .running ∧ ∃ t, hostEvent .step r = .next t) ∧
    (overflown.started = true ∧ (HostEvent.tick ≠ .reset) ∧ ∃ t, hostEvent .tick overflown = .next t) ∧
    ∃ t, hostEvent .reset overflown = .next t :=
  ⟨⟨_, rfl⟩, ⟨_, rfl⟩, ⟨_, rfl⟩, ⟨by decide, _, rfl⟩, ⟨rfl, by decide, _, rfl⟩, _, rfl⟩

/-- SoundPulseFollowsTheMode: the constant is one of the two modes, whichever it is. -/
theorem test_witness_soundMode : Config.soundTimerMode = .zeroAfterPulse ∨ Config.soundTimerMode = .countdown := by
  cases Config.soundTimerMode
  · exact .inr rfl
  · exact .inl rfl

/-- HostKeysResolveToTheFirstSlot: slots 0, 3 and 15, a host key in no slot, and no table. -/
theorem test_witness_hostKeys : r.keyMap = none ∧ ({ r with keyMap := some twice }).keyMap = some twice ∧
    (twice[3]? = some 7 ∧ ∀ j : Nat, j < 3 → twice[j]? ≠ some 7) ∧
    (twice[0]? = some 100 ∧ ∀ j : Nat, j < 0 → twice[j]? ≠ some 100) ∧
    (twice[15]? = some 115 ∧ ∀ j : Nat, j < 15 → twice[j]? ≠ some 115) ∧ ∀ j : Nat, twice[j]? ≠ some 99 := by
  have none99 : ∀ i : Fin 16, twice[i.val] ≠ 99 := by decide
  refine ⟨rfl, rfl, by decide, by decide, by decide, fun j h => ?_⟩
  obtain ⟨hj, e⟩ := Vector.getElem?_eq_some_iff.mp h
  exact none99 ⟨j, hj⟩ e

/-- PixelQueryIsBoundsChecked: the last pixel, the first column and the first row outside. -/
theorem test_witness_pixelQuery : (63 : Nat) < 64 ∧ (31 : Nat) < 32 ∧ (64 ≤ (64 : Nat) ∨ 32 ≤ (0 : Nat)) ∧
    (64 ≤ (0 : Nat) ∨ 32 ≤ (32 : Nat)) := by decide

/-- ProgramLoadStoresTheImage: 3584 bytes fit, 3585 do not (Z2, Z3); a byte of an image, an address below and one
above it; a load after the start. -/
theorem test_witness_load : r.started = false ∧ r.mem.wf = true ∧ (List.replicate 3584 (0x12 : Byte)).length ≤ 3584 ∧
    3584 < (List.replicate 3585 (0x12 : Byte)).length ∧ [(0x12 : Byte), 0x34][1]? = some 0x34 ∧
    (0x1FF < 0x200 ∨ 0x200 + [(0x12 : Byte), 0x34].length ≤ 0x1FF) ∧
    (0x202 < 0x200 ∨ 0x200 + [(0x12 : Byte), 0x34].length ≤ 0x202) ∧ ({ r with started := true }).started = true :=
  ⟨by decide, by decide, by rw [List.length_replicate], by rw [List.length_replicate]; decide, by decide, by decide,
    by decide, by decide⟩

/-- EveryStepKeepsTheInvariant: faulted, and running with SP, pc and a return address at their bounds. -/
theorem test_witness_inv :
    (overflown.Inv ∧ step overflown = .next overflown) ∧
    (({ overflown with pc := 0x10FE, stack := Vector.replicate 16 0x1000, run := .running, fault := none } : State).Inv ∧
      ∃ t, step { overflown with pc := 0x10FE, run := .running, fault := none } = .next t) := by
  refine ⟨⟨⟨by decide, ⟨by decide, by simp [overflown]⟩, by decide, ⟨by decide, fun f h => ?_⟩, fun _ => rfl⟩, rfl⟩,
    ⟨by decide, ⟨by decide, by simp⟩, by decide, ⟨by decide, fun f h => ?_⟩, fun _ => rfl⟩, _, rfl⟩
  · simp only [overflown, Option.some.injEq] at h
    rw [← h]
    rfl
  · simp at h

/-- EveryStepKeepsMemoryCanonical: a memory with bytes listed. -/
theorem test_witness_canonical : overflown.mem.wf = true ∧ step overflown = .next overflown := ⟨by decide, rfl⟩

/-- LegalStatesNeverStop: SP 16. -/
theorem test_witness_legal : overflown.sp.toNat ≤ 16 := by decide

/-- OnlyTheseInstructionsFault: an instruction of each side; one that faults and one that does not. -/
theorem test_witness_faulting : Claims.canFault (.ldVxK 3) = false ∧ Claims.canFault (.jp 0) = false ∧
    Claims.canFault .ret = true ∧ Claims.canFault (.drw 0 1 5) = true ∧ (∃ t, exec .ret r = .next t) ∧
    ∃ t, exec (.drw 0 1 5) r = .next t := ⟨by decide, by decide, by decide, by decide, ⟨_, rfl⟩, _, rfl⟩

/-- OnlyResetLeavesFaulted, past the start-up as well. -/
theorem test_witness_faulted : overflown.run = .faulted ∧ overflown.started = true ∧ (∀ rest, overflown.schedule ≠ .reset :: rest) ∧
    step overflown = .next overflown := ⟨by decide, rfl, fun rest h => by simp [overflown, State.reset] at h, rfl⟩

/-- RegistersOutsideTheDestinationsKeepTheirValue: V6 beside LD V5,[I], and V0 beside SHL VF. -/
theorem test_witness_destRegs : (∃ t, exec (.loadRegs 5) r = .next t) ∧ (6 : Nibble) ∉ destRegs (.loadRegs 5) ∧
    (∃ t, exec (.shl 15 0) r = .next t) ∧ (0 : Nibble) ∉ destRegs (.shl 15 0) :=
  ⟨⟨_, rfl⟩, by decide, ⟨_, rfl⟩, by decide⟩

/-- MemoryOutsideTheStoredBytesIsUnchanged: the byte after the block, and any byte beside an instruction that
stores nothing. -/
theorem test_witness_storedAddrs : (∃ t, exec (.storeRegs 5) r = .next t) ∧ 6 ∉ storedAddrs r (.storeRegs 5) ∧
    (∃ t, exec (.ldB 5) r = .next t) ∧ 3 ∉ storedAddrs r (.ldB 5) ∧ 0 ∉ storedAddrs r .cls :=
  ⟨⟨_, rfl⟩, by decide, ⟨_, rfl⟩, by decide, by decide⟩

/-- OnlyTransfersChangeThePc: an instruction that is none, and a skip of each kind. -/
theorem test_witness_transfers : Claims.isTransfer .cls = false ∧ (∃ t, exec .cls r = .next t) ∧
    (∃ t, exec (.seImm 1 0) r = .next t) ∧ (∃ t, exec (.sneReg 1 2 0) r = .next t) ∧ ∃ t, exec (.skp 1) r = .next t :=
  ⟨by decide, ⟨_, rfl⟩, ⟨_, rfl⟩, ⟨_, rfl⟩, _, rfl⟩

/-- IAndTheStackHaveFewWriters, TimersDisplayAndKeysHaveFewWriters, InstructionsLeaveTheHostSideAlone: an
instruction of each side. -/
theorem test_witness_writers : (∃ t, exec (.ldI 5) r = .next t ∧ t.iReg ≠ r.iReg) ∧
    (∃ t, exec (.call 5) r = .next t ∧ t.sp ≠ r.sp) ∧ (∃ t, exec (.ldImm 1 5) r = .next t ∧ t.iReg = r.iReg) ∧
    (∃ t, exec (.ldDtVx 1) (r.setV 1 9) = .next t ∧ t.dt ≠ r.dt) ∧
    ∃ t, exec (.rnd 1 5) r = .next t ∧ t.draws ≠ r.draws :=
  ⟨⟨_, rfl, by decide⟩, ⟨_, rfl, by decide⟩, ⟨_, rfl, by decide⟩, ⟨_, rfl, by decide⟩, _, rfl, by decide⟩

/-- NothingButSoundDependsOnST: a Tick with ST running out. -/
theorem test_witness_sound : ∃ t, step { r with st := 1, schedule := [.tick] } = .next t ∧ t.st = 0 := ⟨_, rfl, by decide⟩

end Sys2Proof.Tests
end

section
/-! Control transfer (40_control_transfer.md R81, R83 to R87): how the jumps and the four compare-and-skip words
decode, what each of them executes to, and the obligations O14 and O13. -/

namespace Sys2Proof.Decode

/-! ## One family, one instruction (30_encoding.md R64) -/

theorem decodeWord_jp {w : Word} (h : opOf w = 0x1#4) : decodeWord w = .ok (.jp (nnnOf w)) := by
  simp [decodeWord_of_family, byFamily, h]

theorem decodeWord_seImm {w : Word} (h : opOf w = 0x3#4) :
    decodeWord w = .ok (.seImm (xOf w) (kkOf w)) := by
  simp [decodeWord_of_family, byFamily, h]

theorem decodeWord_sneImm {w : Word} (h : opOf w = 0x4#4) :
    decodeWord w = .ok (.sneImm (xOf w) (kkOf w)) := by
  simp [decodeWord_of_family, byFamily, h]

theorem decodeWord_seReg {w : Word} (h : opOf w = 0x5#4) :
    decodeWord w = .ok (.seReg (xOf w) (yOf w) (nOf w)) := by
  simp [decodeWord_of_family, byFamily, h]

theorem decodeWord_sneReg {w : Word} (h : opOf w = 0x9#4) :
    decodeWord w = .ok (.sneReg (xOf w) (yOf w) (nOf w)) := by
  simp [decodeWord_of_family, byFamily, h]

theorem decodeWord_jpV0 {w : Word} (h : opOf w = 0xB#4) : decodeWord w = .ok (.jpV0 (nnnOf w)) := by
  simp [decodeWord_of_family, byFamily, h]

end Sys2Proof.Decode

namespace Sys2Proof.Machine

/-! ## Skips on a comparison -/

theorem State.skipIf_beq (s : State) (a b : Byte) :
    s.skipIf (a == b) = if a = b then { s with pc := s.pc + 2#16 } else s := by
  by_cases h : a = b
  · rw [if_pos h, beq_iff_eq.mpr h, State.skipIf_true]
  · rw [if_neg h, beq_eq_false_iff_ne.mpr h, State.skipIf_false]

theorem State.skipIf_bne (s : State) (a b : Byte) :
    s.skipIf (a != b) = if a ≠ b then { s with pc := s.pc + 2#16 } else s := by
  by_cases h : a ≠ b
  · rw [if_pos h, bne_iff_ne.mpr h, State.skipIf_true]
  · rw [if_neg h, bne_eq_false_iff_eq.mpr (not_not.mp h), State.skipIf_false]

/-! ## The target of JP V0 -/

/-- The sum of R87 is taken modulo 65536: neither term is reduced to 12 bits, nor is the sum. -/
theorem State.indexedTarget_eq (s : State) (nnn : Addr12) :
    s.indexedTarget nnn = nnn.setWidth 16 + (s.getV 0x0#4).setWidth 16 := by
  rw [State.indexedTarget, BitVec.ofNat_add, BitVec.ofNat_toNat, BitVec.ofNat_toNat]

/-! ## What the transfers execute to -/

theorem exec_jp (nnn : Addr12) (s : State) : exec (.jp nnn) s = .next { s with pc := nnn.setWidth 16 } := rfl

theorem exec_jpV0 (nnn : Addr12) (s : State) :
    exec (.jpV0 nnn) s = .next { s with pc := nnn.setWidth 16 + (s.getV 0x0#4).setWidth 16 } := by
  show Host.Outcome.next (s.setPc (s.indexedTarget nnn)) = _
  rw [State.indexedTarget_eq, State.setPc]

theorem exec_seImm (x : Nibble) (kk : Byte) (s : State) :
    exec (.seImm x kk) s = .next (if s.getV x = kk then { s with pc := s.pc + 2#16 } else s) :=
  congrArg Host.Outcome.next (s.skipIf_beq (s.getV x) kk)

theorem exec_sneImm (x : Nibble) (kk : Byte) (s : State) :
    exec (.sneImm x kk) s = .next (if s.getV x ≠ kk then { s with pc := s.pc + 2#16 } else s) :=
  congrArg Host.Outcome.next (s.skipIf_bne (s.getV x) kk)

theorem exec_seReg (x y ign : Nibble) (s : State) :
    exec (.seReg x y ign) s = .next (if s.getV x = s.getV y then { s with pc := s.pc + 2#16 } else s) :=
  congrArg Host.Outcome.next (s.skipIf_beq (s.getV x) (s.getV y))

theorem exec_sneReg (x y ign : Nibble) (s : State) :
    exec (.sneReg x y ign) s = .next (if s.getV x ≠ s.getV y then { s with pc := s.pc + 2#16 } else s) :=
  congrArg Host.Outcome.next (s.skipIf_bne (s.getV x) (s.getV y))

end Sys2Proof.Machine

namespace Sys2Proof

open Sys2Proof.Decode Sys2Proof.Machine

/-- Settles O14: each word decodes by its family alone, and each skip is one comparison on the state. -/
theorem skipsPassOneWord : Obligations.SkipsPassOneWord := by
  unfold Obligations.SkipsPassOneWord
  constructor
  · intro w
    exact ⟨decodeWord_seImm, decodeWord_sneImm, decodeWord_seReg, decodeWord_sneReg⟩
  · intro s x y ign kk
    exact ⟨exec_seImm x kk s, exec_sneImm x kk s, exec_seReg x y ign s, exec_sneReg x y ign s⟩

/-- Settles O13: each word decodes by its family alone, and each jump writes the pc and nothing else. -/
theorem jumpsGoToTheirTargets : Obligations.JumpsGoToTheirTargets := by
  unfold Obligations.JumpsGoToTheirTargets
  exact ⟨fun _ => decodeWord_jp, fun _ => decodeWord_jpV0,
    fun s nnn => ⟨exec_jp nnn s, exec_jpV0 nnn s⟩⟩

end Sys2Proof
end

section
/-! Register loads, the immediate addition and the logic operations (41_load_alu.md R100 to R105): how their words
decode, the one register each of them writes, and the obligations O17 and O18. -/

namespace Sys2Proof.Decode

/-! ## Families 6 and 7, and family 8 on its low nibble (30_encoding.md R64, R66) -/

theorem decodeWord_ldImm {w : Word} (h : opOf w = 0x6#4) :
    decodeWord w = .ok (.ldImm (xOf w) (kkOf w)) := by
  simp [decodeWord_of_family, byFamily, h]

theorem decodeWord_addImm {w : Word} (h : opOf w = 0x7#4) :
    decodeWord w = .ok (.addImm (xOf w) (kkOf w)) := by
  simp [decodeWord_of_family, byFamily, h]

theorem decodeWord_of_family8 {w : Word} (h : opOf w = 0x8#4) :
    decodeWord w = family8 (xOf w) (yOf w) (nOf w) := by
  simp [decodeWord_of_family, byFamily, h]

theorem decodeWord_ldReg {w : Word} (h : opOf w = 0x8#4) (hn : nOf w = 0x0#4) :
    decodeWord w = .ok (.ldReg (xOf w) (yOf w)) := by
  rw [decodeWord_of_family8 h, hn]
  rfl

theorem decodeWord_orReg {w : Word} (h : opOf w = 0x8#4) (hn : nOf w = 0x1#4) :
    decodeWord w = .ok (.orReg (xOf w) (yOf w)) := by
  rw [decodeWord_of_family8 h, hn]
  rfl

theorem decodeWord_andReg {w : Word} (h : opOf w = 0x8#4) (hn : nOf w = 0x2#4) :
    decodeWord w = .ok (.andReg (xOf w) (yOf w)) := by
  rw [decodeWord_of_family8 h, hn]
  rfl

theorem decodeWord_xorReg {w : Word} (h : opOf w = 0x8#4) (hn : nOf w = 0x3#4) :
    decodeWord w = .ok (.xorReg (xOf w) (yOf w)) := by
  rw [decodeWord_of_family8 h, hn]
  rfl

end Sys2Proof.Decode

namespace Sys2Proof.Machine

/-! ## What the loads, the immediate addition and the logic operations execute to -/

theorem exec_ldImm (x : Nibble) (kk : Byte) (s : State) : exec (.ldImm x kk) s = .next (s.setV x kk) := rfl

/-- The exact sum narrowed to 8 bits is the sum of bytes (R101, R108). -/
theorem exec_addImm (x : Nibble) (kk : Byte) (s : State) :
    exec (.addImm x kk) s = .next (s.setV x (s.getV x + kk)) :=
  congrArg (fun b => Host.Outcome.next (s.setV x b)) (sum8_eq (s.getV x) kk)

theorem exec_ldReg (x y : Nibble) (s : State) : exec (.ldReg x y) s = .next (s.setV x (s.getV y)) := rfl

theorem exec_orReg (x y : Nibble) (s : State) :
    exec (.orReg x y) s = .next (s.setV x (s.getV x ||| s.getV y)) := rfl

theorem exec_andReg (x y : Nibble) (s : State) :
    exec (.andReg x y) s = .next (s.setV x (s.getV x &&& s.getV y)) := rfl

theorem exec_xorReg (x y : Nibble) (s : State) :
    exec (.xorReg x y) s = .next (s.setV x (s.getV x ^^^ s.getV y)) := rfl

end Sys2Proof.Machine

namespace Sys2Proof.Claims

open Sys2Proof.Machine

/-! ## The frame of one register write -/

theorem registerWritten_setV (s : State) (x : Nibble) (b : Byte) : RegisterWritten s (s.setV x b) x b :=
  ⟨s.getV_setV_same x b, fun _ hr => s.getV_setV_other b hr, s.setV_eq x b⟩

theorem exists_registerWritten_of_exec {i : Instr} {s : State} {x : Nibble} {b : Byte}
    (h : exec i s = .next (s.setV x b)) : ∃ t, exec i s = .next t ∧ RegisterWritten s t x b :=
  ⟨s.setV x b, h, registerWritten_setV s x b⟩

end Sys2Proof.Claims

namespace Sys2Proof

open Sys2Proof.Decode Sys2Proof.Machine Sys2Proof.Claims

/-- Settles O17: each of the three is one register write, and the sum modulo 256 is the sum of bytes. -/
theorem loadsAndImmediateAddWriteVx : Obligations.LoadsAndImmediateAddWriteVx := by
  unfold Obligations.LoadsAndImmediateAddWriteVx
  constructor
  · intro w
    exact ⟨decodeWord_ldImm, decodeWord_addImm, decodeWord_ldReg⟩
  · intro s x y kk
    exact ⟨exists_registerWritten_of_exec (exec_ldImm x kk s),
      exists_registerWritten_of_exec (exec_addImm x kk s),
      exists_registerWritten_of_exec (exec_ldReg x y s)⟩

/-- Settles O18: each of the three is one register write, so VF changes only as the destination. -/
theorem logicOperationsWriteVx : Obligations.LogicOperationsWriteVx := by
  unfold Obligations.LogicOperationsWriteVx
  constructor
  · intro w h
    exact ⟨decodeWord_orReg h, decodeWord_andReg h, decodeWord_xorReg h⟩
  · intro s x y
    exact ⟨exists_registerWritten_of_exec (exec_orReg x y s),
      exists_registerWritten_of_exec (exec_andReg x y s),
      exists_registerWritten_of_exec (exec_xorReg x y s)⟩

end Sys2Proof
end

section
/-! Writes of the address register (42_index_memory.md R120 to R122): how the words of LD I,nnn, ADD I,Vx and LD F,Vx
decode, the one value each of them leaves in I, and the obligation O23. -/

namespace Sys2Proof.Decode

/-! ## Family A, and family F on its low byte (30_encoding.md R64, R68) -/

theorem decodeWord_ldI {w : Word} (h : opOf w = 0xA#4) : decodeWord w = .ok (.ldI (nnnOf w)) := by
  simp [decodeWord_of_family, byFamily, h]

theorem decodeWord_of_familyF {w : Word} (h : opOf w = 0xF#4) :
    decodeWord w = familyF (xOf w) (kkOf w) := by
  simp [decodeWord_of_family, byFamily, h]

theorem decodeWord_addI {w : Word} (h : opOf w = 0xF#4) (hkk : kkOf w = 0x1E#8) :
    decodeWord w = .ok (.addI (xOf w)) := by
  rw [decodeWord_of_familyF h, hkk]
  rfl

theorem decodeWord_ldF {w : Word} (h : opOf w = 0xF#4) (hkk : kkOf w = 0x29#8) :
    decodeWord w = .ok (.ldF (xOf w)) := by
  rw [decodeWord_of_familyF h, hkk]
  rfl

end Sys2Proof.Decode

namespace Sys2Proof.Machine

/-! ## What the writes of I execute to -/

theorem exec_ldI (nnn : Addr12) (s : State) :
    exec (.ldI nnn) s = .next { s with iReg := nnn.setWidth 16 } := rfl

/-- The exact sum narrowed to 16 bits is the sum of words: nothing is masked to 12 bits (R121). -/
theorem exec_addI (x : Nibble) (s : State) :
    exec (.addI x) s = .next { s with iReg := s.iReg + (s.getV x).setWidth 16 } := by
  show Host.Outcome.next { s with iReg := BitVec.ofNat 16 (s.iReg.toNat + (s.getV x).toNat) } = _
  rw [BitVec.ofNat_add, BitVec.ofNat_toNat, BitVec.ofNat_toNat, BitVec.setWidth_eq]

/-- The whole byte is multiplied, not its low nibble (R122). -/
theorem exec_ldF (x : Nibble) (s : State) :
    exec (.ldF x) s = .next { s with iReg := (s.getV x).setWidth 16 * 5#16 } := by
  show Host.Outcome.next { s with iReg := BitVec.ofNat 16 ((s.getV x).toNat * 5) } = _
  rw [BitVec.ofNat_mul, BitVec.ofNat_toNat]

end Sys2Proof.Machine

namespace Sys2Proof

open Sys2Proof.Decode Sys2Proof.Machine

/-- Settles O23: ADD I,Vx and LD F,Vx decode on their low byte, and each of the three is one write of I. -/
theorem addressRegisterInstructionsWriteI : Obligations.AddressRegisterInstructionsWriteI := by
  unfold Obligations.AddressRegisterInstructionsWriteI
  constructor
  · intro w
    exact ⟨decodeWord_ldI, decodeWord_addI, decodeWord_ldF⟩
  · intro s x nnn
    exact ⟨exec_ldI nnn s, exec_addI x s, exec_ldF x s⟩

end Sys2Proof
end

section
/-! CLS (43_display.md R140): how its word decodes, what a pixel of the cleared display reads as, the one field CLS
writes, and the obligation O29. -/

namespace Sys2Proof.Decode

/-- The word of CLS is the first full-word literal Decode tries, before any family (30_encoding.md R63). -/
theorem decodeWord_cls : decodeWord 0x00E0#16 = .ok .cls := if_pos rfl

end Sys2Proof.Decode

namespace Sys2Proof.Machine

/-- The cleared display is unset row by row, so at every coordinate. -/
@[simp] theorem pixel_clearDisplay (px : Fin 64) (py : Fin 32) : pixel clearDisplay px py = false := by
  simp only [pixel, clearDisplay, Fin.getElem_fin, Vector.getElem_replicate]

theorem exec_cls (s : State) : exec .cls s = .next { s with fb := clearDisplay } := rfl

end Sys2Proof.Machine

namespace Sys2Proof

open Sys2Proof.Decode Sys2Proof.Machine

/-- Settles O29: CLS writes the display alone, and no pixel of what it writes is set. -/
theorem clsUnsetsEveryPixel : Obligations.ClsUnsetsEveryPixel := by
  unfold Obligations.ClsUnsetsEveryPixel
  constructor
  · exact decodeWord_cls
  · intro s
    exact ⟨{ s with fb := clearDisplay }, exec_cls s, pixel_clearDisplay, rfl⟩

end Sys2Proof
end

section
/-! The timer moves (44_keypad_timers.md R162, R165, R166): how the words of LD Vx,DT, LD DT,Vx and LD ST,Vx decode,
the one byte each of them copies, and the obligation O34. -/

namespace Sys2Proof.Decode

/-! ## The timer moves of family F (30_encoding.md R68) -/

theorem decodeWord_ldVxDt {w : Word} (h : opOf w = 0xF#4) (hkk : kkOf w = 0x07#8) :
    decodeWord w = .ok (.ldVxDt (xOf w)) := by
  rw [decodeWord_of_familyF h, hkk]
  rfl

theorem decodeWord_ldDtVx {w : Word} (h : opOf w = 0xF#4) (hkk : kkOf w = 0x15#8) :
    decodeWord w = .ok (.ldDtVx (xOf w)) := by
  rw [decodeWord_of_familyF h, hkk]
  rfl

theorem decodeWord_ldStVx {w : Word} (h : opOf w = 0xF#4) (hkk : kkOf w = 0x18#8) :
    decodeWord w = .ok (.ldStVx (xOf w)) := by
  rw [decodeWord_of_familyF h, hkk]
  rfl

end Sys2Proof.Decode

namespace Sys2Proof.Machine

/-! ## What the timer moves execute to -/

theorem exec_ldVxDt (x : Nibble) (s : State) : exec (.ldVxDt x) s = .next (s.setV x s.dt) := rfl

theorem exec_ldDtVx (x : Nibble) (s : State) : exec (.ldDtVx x) s = .next { s with dt := s.getV x } := rfl

theorem exec_ldStVx (x : Nibble) (s : State) : exec (.ldStVx x) s = .next { s with st := s.getV x } := rfl

end Sys2Proof.Machine

namespace Sys2Proof

open Sys2Proof.Decode Sys2Proof.Machine Sys2Proof.Claims

/-- Settles O34: the three decode on their low byte; the read of DT is one register write, and the other two write
their timer alone. -/
theorem timerMovesCopyOneByte : Obligations.TimerMovesCopyOneByte := by
  unfold Obligations.TimerMovesCopyOneByte
  constructor
  · intro w h
    exact ⟨decodeWord_ldVxDt h, decodeWord_ldDtVx h, decodeWord_ldStVx h⟩
  · intro s x
    exact ⟨exists_registerWritten_of_exec (exec_ldVxDt x s), exec_ldDtVx x s, exec_ldStVx x s⟩

end Sys2Proof
end

section
/-! The host's pixel query (60_exceptions.md R200): its answer on either side of the display's bounds, and the
obligation O41. -/

namespace Sys2Proof.Machine

/-! ## What the pixel query answers -/

theorem isSet_of_inside (s : State) {x y : Nat} (hx : x < 64) (hy : y < 32) :
    s.isSet x y = some (pixel s.fb ⟨x, hx⟩ ⟨y, hy⟩) := by
  rw [State.isSet, dif_pos hx, dif_pos hy]

theorem isSet_of_column_outside (s : State) {x : Nat} (y : Nat) (hx : 64 ≤ x) : s.isSet x y = none := by
  rw [State.isSet, dif_neg (Nat.not_lt_of_le hx)]

/-- The row's bound is checked second, and a column outside answers the same. -/
theorem isSet_of_row_outside (s : State) (x : Nat) {y : Nat} (hy : 32 ≤ y) : s.isSet x y = none := by
  obtain hx | hx := Nat.lt_or_ge x 64
  · rw [State.isSet, dif_pos hx, dif_neg (Nat.not_lt_of_le hy)]
  · exact isSet_of_column_outside s y hx

end Sys2Proof.Machine

namespace Sys2Proof

open Sys2Proof.Machine

/-- Settles O41: inside both bounds the query reads the pixel; outside, one case for each bound. -/
theorem pixelQueryIsBoundsChecked : Obligations.PixelQueryIsBoundsChecked := by
  unfold Obligations.PixelQueryIsBoundsChecked
  intro s x y
  constructor
  · exact isSet_of_inside s
  · rintro (hx | hy)
    · exact isSet_of_column_outside s y hx
    · exact isSet_of_row_outside s x hy

end Sys2Proof
end

section
/-! The decoder and the encoder against each other (30_encoding.md R61 to R70): how the words of the remaining
instructions decode, both round trips, the table of unsupported words, and the obligations O1, O2, O3 and O4. -/

namespace Sys2Proof.Decode

/-! ## The remaining instructions, one by one (30_encoding.md R63 to R68) -/

/-- The word of RET is the second full-word literal Decode tries. -/
theorem decodeWord_ret : decodeWord 0x00EE#16 = .ok .ret := rfl

theorem decodeWord_call {w : Word} (h : opOf w = 0x2#4) : decodeWord w = .ok (.call (nnnOf w)) := by
  simp [decodeWord_of_family, byFamily, h]

theorem decodeWord_addReg {w : Word} (h : opOf w = 0x8#4) (hn : nOf w = 0x4#4) :
    decodeWord w = .ok (.addReg (xOf w) (yOf w)) := by
  rw [decodeWord_of_family8 h, hn]
  rfl

theorem decodeWord_subReg {w : Word} (h : opOf w = 0x8#4) (hn : nOf w = 0x5#4) :
    decodeWord w = .ok (.subReg (xOf w) (yOf w)) := by
  rw [decodeWord_of_family8 h, hn]
  rfl

theorem decodeWord_shr {w : Word} (h : opOf w = 0x8#4) (hn : nOf w = 0x6#4) :
    decodeWord w = .ok (.shr (xOf w) (yOf w)) := by
  rw [decodeWord_of_family8 h, hn]
  rfl

theorem decodeWord_subnReg {w : Word} (h : opOf w = 0x8#4) (hn : nOf w = 0x7#4) :
    decodeWord w = .ok (.subnReg (xOf w) (yOf w)) := by
  rw [decodeWord_of_family8 h, hn]
  rfl

theorem decodeWord_shl {w : Word} (h : opOf w = 0x8#4) (hn : nOf w = 0xE#4) :
    decodeWord w = .ok (.shl (xOf w) (yOf w)) := by
  rw [decodeWord_of_family8 h, hn]
  rfl

theorem decodeWord_rnd {w : Word} (h : opOf w = 0xC#4) : decodeWord w = .ok (.rnd (xOf w) (kkOf w)) := by
  simp [decodeWord_of_family, byFamily, h]

theorem decodeWord_drw {w : Word} (h : opOf w = 0xD#4) :
    decodeWord w = .ok (.drw (xOf w) (yOf w) (nOf w)) := by
  simp [decodeWord_of_family, byFamily, h]

theorem decodeWord_of_familyE {w : Word} (h : opOf w = 0xE#4) :
    decodeWord w = familyE (xOf w) (kkOf w) := by
  simp [decodeWord_of_family, byFamily, h]

theorem decodeWord_skp {w : Word} (h : opOf w = 0xE#4) (hkk : kkOf w = 0x9E#8) :
    decodeWord w = .ok (.skp (xOf w)) := by
  rw [decodeWord_of_familyE h, hkk]
  rfl

theorem decodeWord_sknp {w : Word} (h : opOf w = 0xE#4) (hkk : kkOf w = 0xA1#8) :
    decodeWord w = .ok (.sknp (xOf w)) := by
  rw [decodeWord_of_familyE h, hkk]
  rfl

theorem decodeWord_ldVxK {w : Word} (h : opOf w = 0xF#4) (hkk : kkOf w = 0x0A#8) :
    decodeWord w = .ok (.ldVxK (xOf w)) := by
  rw [decodeWord_of_familyF h, hkk]
  rfl

theorem decodeWord_ldB {w : Word} (h : opOf w = 0xF#4) (hkk : kkOf w = 0x33#8) :
    decodeWord w = .ok (.ldB (xOf w)) := by
  rw [decodeWord_of_familyF h, hkk]
  rfl

theorem decodeWord_storeRegs {w : Word} (h : opOf w = 0xF#4) (hkk : kkOf w = 0x55#8) :
    decodeWord w = .ok (.storeRegs (xOf w)) := by
  rw [decodeWord_of_familyF h, hkk]
  rfl

theorem decodeWord_loadRegs {w : Word} (h : opOf w = 0xF#4) (hkk : kkOf w = 0x65#8) :
    decodeWord w = .ok (.loadRegs (xOf w)) := by
  rw [decodeWord_of_familyF h, hkk]
  rfl

/-! ## A word put together again from its selector and its fields -/

theorem formatNNN_of_selector {w : Word} {o : Nat} (ho : (opOf w).toNat = o) :
    formatNNN (BitVec.ofNat 4 o) (nnnOf w) = w := by
  rw [← ho, BitVec.ofNat_toNat, BitVec.setWidth_eq, formatNNN_fields]

theorem formatXYN_of_selector {w : Word} {o : Nat} (ho : (opOf w).toNat = o) :
    formatXYN (BitVec.ofNat 4 o) (xOf w) (yOf w) (nOf w) = w := by
  rw [← ho, BitVec.ofNat_toNat, BitVec.setWidth_eq, formatXYN_fields]

theorem formatXKK_of_selector {w : Word} {o : Nat} (ho : (opOf w).toNat = o) :
    formatXKK (BitVec.ofNat 4 o) (xOf w) (kkOf w) = w := by
  rw [← ho, BitVec.ofNat_toNat, BitVec.setWidth_eq, formatXKK_fields]

/-- Family 8 loses no bit: the low nibble that selects the instruction is the one its encoding writes. -/
theorem encode_of_family8 {x y n : Nibble} {i : Instr} (h : family8 x y n = .ok i) :
    encode i = formatXYN 0x8#4 x y n := by
  unfold family8 at h
  split at h
  case h_10 => cases h
  all_goals
    next hn =>
      cases h
      exact congrArg (formatXYN 0x8#4 x y) (BitVec.eq_of_toNat_eq hn.symm)

/-- Family E loses no bit. -/
theorem encode_of_familyE {x : Nibble} {kk : Byte} {i : Instr} (h : familyE x kk = .ok i) :
    encode i = formatXKK 0xE#4 x kk := by
  unfold familyE at h
  split at h
  case h_3 => cases h
  all_goals
    next hkk =>
      cases h
      exact congrArg (formatXKK 0xE#4 x) (BitVec.eq_of_toNat_eq hkk.symm)

/-- Family F loses no bit. -/
theorem encode_of_familyF {x : Nibble} {kk : Byte} {i : Instr} (h : familyF x kk = .ok i) :
    encode i = formatXKK 0xF#4 x kk := by
  unfold familyF at h
  split at h
  case h_10 => cases h
  all_goals
    next hkk =>
      cases h
      exact congrArg (formatXKK 0xF#4 x) (BitVec.eq_of_toNat_eq hkk.symm)

/-- No family loses a bit: each format of R62 is its selector and its fields. -/
theorem encode_of_byFamily {w : Word} {i : Instr} (h : byFamily w = .ok i) : encode i = w := by
  unfold byFamily at h
  split at h
  case h_1 => cases h
  case h_2 ho | h_3 ho | h_11 ho | h_12 ho =>
    cases h
    exact formatNNN_of_selector ho
  case h_4 ho | h_5 ho | h_7 ho | h_8 ho | h_13 ho =>
    cases h
    exact formatXKK_of_selector ho
  case h_6 ho | h_10 ho | h_14 ho =>
    cases h
    exact formatXYN_of_selector ho
  case h_9 ho => exact (encode_of_family8 h).trans (formatXYN_of_selector ho)
  case h_15 ho => exact (encode_of_familyE h).trans (formatXKK_of_selector ho)
  case h_16 =>
    have hlt := (opOf w).isLt
    have ho : (opOf w).toNat = 15 := by grind
    exact (encode_of_familyF h).trans (formatXKK_of_selector ho)

/-! ## The unsupported words, family by family (30_encoding.md R70) -/

theorem family8_error_iff {x y n : Nibble} :
    (∃ r, family8 x y n = .error r) ↔ n.toNat ∈ [0x8, 0x9, 0xA, 0xB, 0xC, 0xD, 0xF] := by
  unfold family8
  split
  case h_10 =>
    have hlt := n.isLt
    refine iff_of_true ⟨_, rfl⟩ ?_
    simp only [List.mem_cons, List.not_mem_nil, or_false]
    grind
  all_goals next hn => simp [hn]

theorem familyE_error_iff {x : Nibble} {kk : Byte} :
    (∃ r, familyE x kk = .error r) ↔ kk.toNat ∉ [0x9E, 0xA1] := by
  unfold familyE
  split
  case h_3 => exact iff_of_true ⟨_, rfl⟩ (by simp_all)
  all_goals next hkk => simp [hkk]

theorem familyF_error_iff {x : Nibble} {kk : Byte} :
    (∃ r, familyF x kk = .error r) ↔
      kk.toNat ∉ [0x07, 0x0A, 0x15, 0x18, 0x1E, 0x29, 0x33, 0x55, 0x65] := by
  unfold familyF
  split
  case h_10 => exact iff_of_true ⟨_, rfl⟩ (by simp_all)
  all_goals next hkk => simp [hkk]

/-- Only families 0, 8, E and F hold words that select nothing. -/
theorem byFamily_error_iff {w : Word} :
    (∃ r, byFamily w = .error r) ↔
      (opOf w).toNat = 0x0 ∨
      ((opOf w).toNat = 0x8 ∧ ∃ r, family8 (xOf w) (yOf w) (nOf w) = .error r) ∨
      ((opOf w).toNat = 0xE ∧ ∃ r, familyE (xOf w) (kkOf w) = .error r) ∨
      ((opOf w).toNat = 0xF ∧ ∃ r, familyF (xOf w) (kkOf w) = .error r) := by
  unfold byFamily
  split
  case h_16 =>
    have hlt := (opOf w).isLt
    have ho : (opOf w).toNat = 15 := by grind
    simp [ho]
  all_goals next ho => simp [ho]

end Sys2Proof.Decode

namespace Sys2Proof

open Sys2Proof.Decode

/-- A word is rejected where it is neither of the two literals and its family rejects it. -/
theorem decodeWord_error_iff {w : Word} :
    (∃ r, decodeWord w = .error r) ↔ w ≠ 0x00E0#16 ∧ w ≠ 0x00EE#16 ∧ ∃ r, byFamily w = .error r := by
  unfold decodeWord
  split
  · simp [*]
  · split <;> simp [*]

/-- A word of a family other than 0 is neither of the two literals. -/
theorem ne_literal_of_family {w l : Word} (hl : l.toNat < 0x1000) (h : w.toNat / 0x1000 ≠ 0) : w ≠ l := by
  rintro rfl
  omega

/-- Settles O1: every instruction's selector leads to its own branch, which reads back the fields its format wrote. -/
theorem decodeOfEncodeIsTheInstruction : Obligations.DecodeOfEncodeIsTheInstruction := by
  unfold Obligations.DecodeOfEncodeIsTheInstruction
  intro i
  cases i with
  | cls => exact decodeWord_cls
  | ret => exact decodeWord_ret
  | jp nnn => simp [encode, decodeWord_jp]
  | call nnn => simp [encode, decodeWord_call]
  | seImm x kk => simp [encode, decodeWord_seImm]
  | sneImm x kk => simp [encode, decodeWord_sneImm]
  | seReg x y ign => simp [encode, decodeWord_seReg]
  | ldImm x kk => simp [encode, decodeWord_ldImm]
  | addImm x kk => simp [encode, decodeWord_addImm]
  | ldReg x y => simp [encode, decodeWord_ldReg]
  | orReg x y => simp [encode, decodeWord_orReg]
  | andReg x y => simp [encode, decodeWord_andReg]
  | xorReg x y => simp [encode, decodeWord_xorReg]
  | addReg x y => simp [encode, decodeWord_addReg]
  | subReg x y => simp [encode, decodeWord_subReg]
  | shr x ign => simp [encode, decodeWord_shr]
  | subnReg x y => simp [encode, decodeWord_subnReg]
  | shl x ign => simp [encode, decodeWord_shl]
  | sneReg x y ign => simp [encode, decodeWord_sneReg]
  | ldI nnn => simp [encode, decodeWord_ldI]
  | jpV0 nnn => simp [encode, decodeWord_jpV0]
  | rnd x kk => simp [encode, decodeWord_rnd]
  | drw x y n => simp [encode, decodeWord_drw]
  | skp x => simp [encode, decodeWord_skp]
  | sknp x => simp [encode, decodeWord_sknp]
  | ldVxDt x => simp [encode, decodeWord_ldVxDt]
  | ldVxK x => simp [encode, decodeWord_ldVxK]
  | ldDtVx x => simp [encode, decodeWord_ldDtVx]
  | ldStVx x => simp [encode, decodeWord_ldStVx]
  | addI x => simp [encode, decodeWord_addI]
  | ldF x => simp [encode, decodeWord_ldF]
  | ldB x => simp [encode, decodeWord_ldB]
  | storeRegs x => simp [encode, decodeWord_storeRegs]
  | loadRegs x => simp [encode, decodeWord_loadRegs]

/-- Settles O2: the two literals encode to themselves, and no family loses a bit. -/
theorem encodeOfDecodeIsTheWord : Obligations.EncodeOfDecodeIsTheWord := by
  unfold Obligations.EncodeOfDecodeIsTheWord
  intro w i h
  unfold decodeWord at h
  split at h
  · next hw =>
    cases h
    exact hw.symm
  · split at h
    · next hw =>
      cases h
      exact hw.symm
    · exact encode_of_byFamily h

/-- Settles O3: the literals are of family 0, so outside it the table is that of the families. -/
theorem unsupportedWordsAreExactlyThese : Obligations.UnsupportedWordsAreExactlyThese := by
  unfold Obligations.UnsupportedWordsAreExactlyThese
  intro w
  rw [decodeWord_error_iff, byFamily_error_iff, family8_error_iff, familyE_error_iff, familyF_error_iff,
    toNat_opOf, toNat_nOf, toNat_kkOf]
  have hcls : w.toNat / 0x1000 ≠ 0 → w ≠ 0x00E0#16 := ne_literal_of_family (by decide)
  have hret : w.toNat / 0x1000 ≠ 0 → w ≠ 0x00EE#16 := ne_literal_of_family (by decide)
  constructor
  · rintro ⟨h1, h2, h | h⟩
    · exact .inl ⟨h, h1, h2⟩
    · exact .inr h
  · rintro (⟨h, h1, h2⟩ | h)
    · exact ⟨h1, h2, .inl h⟩
    · have hfam : w.toNat / 0x1000 ≠ 0 := by omega
      exact ⟨hcls hfam, hret hfam, .inr h⟩

/-- Settles O4: each sample is decoded by computation. -/
theorem sampleWordsDecode : Obligations.SampleWordsDecode := by
  unfold Obligations.SampleWordsDecode
  exact ⟨rfl, rfl, rfl, rfl, rfl, rfl, rfl, rfl, rfl, rfl, rfl, rfl, rfl, rfl, rfl, rfl, rfl, rfl, rfl, rfl, rfl, rfl⟩

end Sys2Proof
end

section
/-! CALL and RET (40_control_transfer.md R80, R82; 10_state.md R17 to R20): what each executes to on either side of the
stack's bounds, and the obligations O11, O12, O15 and O16. -/

namespace Sys2Proof.Machine

/-! ## What CALL and RET execute to -/

theorem exec_call_of_lt {s : State} (nnn : Addr12) (h : s.sp.toNat < 16) :
    exec (.call nnn) s =
      .next { s with stack := s.stack.set s.sp.toNat s.pc h, sp := s.sp + 1#8, pc := nnn.setWidth 16 } := by
  show execCall nnn s = _
  rw [execCall, push_of_lt _ h]
  rfl

theorem exec_call_of_eq {s : State} (nnn : Addr12) (h : s.sp.toNat = 16) :
    exec (.call nnn) s = .next (faultOf (.call nnn) s s .stackOverflow none) := by
  show execCall nnn s = _
  rw [execCall, push_of_eq _ h]
  rfl

theorem exec_call_of_gt {s : State} (nnn : Addr12) (h : 16 < s.sp.toNat) :
    exec (.call nnn) s = .fault .stackPointerOutOfRange := by
  show execCall nnn s = _
  rw [execCall, push_of_gt _ h]
  rfl

theorem exec_ret_of_zero {s : State} (h : s.sp.toNat = 0) :
    exec .ret s = .next (faultOf .ret s s .stackUnderflow none) := by
  show execRet s = _
  rw [execRet, pop_of_zero h]
  rfl

theorem exec_ret_of_le {s : State} (h0 : s.sp.toNat ≠ 0) (h : s.sp.toNat - 1 < 16) :
    exec .ret s = .next { s with pc := s.stack[s.sp.toNat - 1], sp := s.sp - 1#8 } := by
  show execRet s = _
  rw [execRet, pop_of_le h0 h]
  rfl

theorem exec_ret_of_gt {s : State} (h : 16 < s.sp.toNat) : exec .ret s = .fault .stackPointerOutOfRange := by
  show execRet s = _
  rw [execRet, pop_of_gt h]
  rfl

/-- Pushing one more return address: SP counts it (10_state.md R17). -/
theorem toNat_sp_succ {n : Byte} (h : n.toNat < 16) : (n + 1#8).toNat = n.toNat + 1 := by
  rw [BitVec.toNat_add]
  show (n.toNat + 1) % 256 = n.toNat + 1
  omega

/-- RET in a state whose stack has the slot and SP of a push of p at SP n: it pops p. -/
theorem exec_ret_of_pushed {u : State} {stack : Vector Word 16} {n : Byte} {p : Word} (hn : n.toNat < 16)
    (hsp : u.sp = n + 1#8) (hst : u.stack = stack.set n.toNat p hn) :
    exec .ret u = .next { u with pc := p, sp := n } := by
  have hu : u.sp.toNat = n.toNat + 1 := by rw [hsp, toNat_sp_succ hn]
  have hslot : u.sp.toNat - 1 = n.toNat := by omega
  have hpop : u.stack[u.sp.toNat - 1] = p := by simp only [hslot, hst, Vector.getElem_set_self]
  have hback : u.sp - 1#8 = n := by rw [hsp, BitVec.add_sub_cancel]
  rw [exec_ret_of_le (by omega) (by omega), hpop, hback]

end Sys2Proof.Machine

namespace Sys2Proof

open Sys2Proof.Decode Sys2Proof.Machine

/-- Settles O11: RET reads the slot below SP, and an SP of 0 is its one fault. -/
theorem retPopsTheReturnAddress : Obligations.RetPopsTheReturnAddress := by
  unfold Obligations.RetPopsTheReturnAddress
  refine ⟨decodeWord_ret, ?_, fun s h => exec_ret_of_zero h⟩
  intro s t h0 ht
  obtain ⟨hlt, rfl⟩ := Vector.getElem?_eq_some_iff.mp ht
  exact exec_ret_of_le (Nat.ne_of_gt h0) hlt

/-- Settles O12: CALL writes the slot SP names, and an SP of 16 is its one fault. -/
theorem callPushesTheNextAddress : Obligations.CallPushesTheNextAddress := by
  unfold Obligations.CallPushesTheNextAddress
  exact ⟨fun _ => decodeWord_call, fun _ nnn => exec_call_of_lt nnn, fun _ nnn => exec_call_of_eq nnn⟩

/-- Settles O15: what CALL pushed is what RET pops, wherever the subroutine has left the rest of the state. -/
theorem retResumesAfterItsCall : Obligations.RetResumesAfterItsCall := by
  unfold Obligations.RetResumesAfterItsCall
  intro s t u nnn hs hcall hsp hst
  rw [exec_call_of_lt nnn hs] at hcall
  cases hcall
  exact ⟨_, exec_ret_of_pushed hs hsp hst, rfl, rfl, rfl⟩

/-- Settles O16: above 16 SP names no slot for either of the two. -/
theorem callAndRetStopOnAnIllegalStackPointer : Obligations.CallAndRetStopOnAnIllegalStackPointer := by
  unfold Obligations.CallAndRetStopOnAnIllegalStackPointer
  intro s nnn h
  exact ⟨exec_call_of_gt nnn h, exec_ret_of_gt h⟩

end Sys2Proof
end

section
/-! The flag-writing operations and RND (41_load_alu.md R106 to R119): what each executes to in bit-vector arithmetic,
the frame of a flagged write, and the obligations O19, O20, O21 and O22. -/

namespace Sys2Proof.Machine

/-- A decided condition as a register value. -/
theorem flagByte_decide (p : Prop) [Decidable p] : flagByte (decide p) = if p then 1#8 else 0#8 := by
  by_cases h : p <;> simp [h]

/-! ## What the flag-writing operations execute to -/

theorem exec_addReg (x y : Nibble) (s : State) :
    exec (.addReg x y) s = .next
      (s.setFlagThenV (decide (255 < (s.getV x).toNat + (s.getV y).toNat)) x (s.getV x + s.getV y)) := by
  rw [← sum8_eq]
  rfl

theorem exec_subReg (x y : Nibble) (s : State) :
    exec (.subReg x y) s = .next
      (s.setFlagThenV (decide ((s.getV y).toNat < (s.getV x).toNat)) x (s.getV x - s.getV y)) := by
  rw [← diff8_eq]
  rfl

theorem exec_subnReg (x y : Nibble) (s : State) :
    exec (.subnReg x y) s = .next
      (s.setFlagThenV (decide ((s.getV x).toNat < (s.getV y).toNat)) x (s.getV y - s.getV x)) := by
  rw [← diff8_eq]
  rfl

theorem exec_shr (x ign : Nibble) (s : State) :
    exec (.shr x ign) s = .next (s.setFlagThenV ((s.getV x).getLsbD 0) x (s.getV x >>> 1)) := by
  rw [← half8_eq, ← lowBitFlag_eq]
  rfl

theorem exec_shl (x ign : Nibble) (s : State) :
    exec (.shl x ign) s = .next (s.setFlagThenV ((s.getV x).getLsbD 7) x (s.getV x <<< 1)) := by
  rw [← double8_eq, ← highBitFlag_eq]
  rfl

/-- RND counts its draw, and writes one register with it. -/
theorem exec_rnd (x : Nibble) (kk : Byte) (s : State) :
    exec (.rnd x kk) s = .next (({ s with draws := s.draws + 1 } : State).setV x (Config.draw8 s.draws &&& kk)) := rfl

end Sys2Proof.Machine

namespace Sys2Proof.Claims

open Sys2Proof.Machine

/-! ## The frame of a flagged write -/

/-- VF takes the flag, then x the result, so with x = 15 the result stays (R119). -/
theorem flagAndResultWritten_setFlagThenV (s : State) (c : Bool) (x : Nibble) (b : Byte) :
    FlagAndResultWritten s (s.setFlagThenV c x b) x (flagByte c) b := by
  refine ⟨?_, fun hx => ?_, fun r hr hf => ?_, s.setFlagThenV_eq c x b⟩
  · rw [State.getV_setFlagThenV, if_pos rfl]
  · rw [State.getV_setFlagThenV, if_neg hx.symm, if_pos rfl]
  · rw [State.getV_setFlagThenV, if_neg hr, if_neg hf]

theorem exists_flagAndResultWritten_of_exec {i : Instr} {s : State} {c : Bool} {x : Nibble} {b : Byte}
    (h : exec i s = .next (s.setFlagThenV c x b)) :
    ∃ t, exec i s = .next t ∧ FlagAndResultWritten s t x (if c then 1#8 else 0#8) b :=
  ⟨_, h, flagAndResultWritten_setFlagThenV s c x b⟩

theorem exists_flagAndResultWritten_of_exec_decide {i : Instr} {s : State} {p : Prop} [Decidable p] {x : Nibble}
    {b : Byte} (h : exec i s = .next (s.setFlagThenV (decide p) x b)) :
    ∃ t, exec i s = .next t ∧ FlagAndResultWritten s t x (if p then 1#8 else 0#8) b := by
  rw [← flagByte_decide]
  exact ⟨_, h, flagAndResultWritten_setFlagThenV s _ x b⟩

end Sys2Proof.Claims

namespace Sys2Proof

open Sys2Proof.Decode Sys2Proof.Machine Sys2Proof.Claims

/-- Settles O19: one flagged write, of the carry and the sum. -/
theorem addSetsCarryThenSum : Obligations.AddSetsCarryThenSum := by
  unfold Obligations.AddSetsCarryThenSum
  exact ⟨fun _ => decodeWord_addReg,
    fun s x y => exists_flagAndResultWritten_of_exec_decide (exec_addReg x y s)⟩

/-- Settles O20: one flagged write each, of the strict comparison of the old values and the difference. -/
theorem subtractionsSetStrictFlagThenDifference : Obligations.SubtractionsSetStrictFlagThenDifference := by
  unfold Obligations.SubtractionsSetStrictFlagThenDifference
  constructor
  · intro w h
    exact ⟨decodeWord_subReg h, decodeWord_subnReg h⟩
  · intro s x y
    exact ⟨exists_flagAndResultWritten_of_exec_decide (exec_subReg x y s),
      exists_flagAndResultWritten_of_exec_decide (exec_subnReg x y s)⟩

/-- Settles O21: one flagged write each, of the bit shifted out and the shifted value; Vy is read by neither. -/
theorem shiftsSetTheBitShiftedOut : Obligations.ShiftsSetTheBitShiftedOut := by
  unfold Obligations.ShiftsSetTheBitShiftedOut
  constructor
  · intro w h
    exact ⟨decodeWord_shr h, decodeWord_shl h⟩
  · intro s x ign
    exact ⟨exists_flagAndResultWritten_of_exec (exec_shr x ign s),
      exists_flagAndResultWritten_of_exec (exec_shl x ign s)⟩

/-- Settles O22: one register write of the masked draw, in the state that has counted it. -/
theorem rndDrawsAfreshUnderTheMask : Obligations.RndDrawsAfreshUnderTheMask := by
  unfold Obligations.RndDrawsAfreshUnderTheMask
  refine ⟨fun _ => decodeWord_rnd, fun s x kk => ⟨_, exec_rnd x kk s, registerWritten_setV _ x _, ?_⟩⟩
  rw [State.getV_setV_same, BitVec.and_assoc, BitVec.and_not_self]
  exact BitVec.and_zero

end Sys2Proof
end

section
/-! One step of the core (70_reset_and_hazards.md R226, R232; 30_encoding.md R71; 60_exceptions.md R204): what a Step is
by RUN, by the fetch and by the word, and the obligations O5 to O10. -/

namespace Sys2Proof.Decode

theorem decodeBytes_pair_ok {hi lo : Byte} {i : Instr} (h : decodeBytes [hi, lo] = .ok (i, [])) :
    decodeWord (wordOfBytes hi lo) = .ok i := by
  cases e : decodeWord (wordOfBytes hi lo) <;> simp_all [decodeBytes]

theorem decodeBytes_pair_error {hi lo : Byte} {r : Reject} (h : decodeBytes [hi, lo] = .error r) :
    decodeWord (wordOfBytes hi lo) = .error r := by
  cases e : decodeWord (wordOfBytes hi lo) <;> simp_all [decodeBytes]

end Sys2Proof.Decode

namespace Sys2Proof.Machine

open Sys2Proof.Decode Sys2Proof.Claims

/-! ## A Step of a core that runs -/

theorem coreStep_of_fetch {s : State} (hrun : s.run = .running) (hpc : s.pc.toNat + 1 < 4096) :
    coreStep s = execWord s.wordAtPc { s with pc := s.pc + 2#16, started := true } :=
  (coreStep_of_running hrun).trans (cycle_of_fetch (s := { s with started := true }) hpc)

theorem coreStep_of_decoded {s : State} {i : Instr} (hrun : s.run = .running) (hpc : s.pc.toNat + 1 < 4096)
    (hw : decodeWord s.wordAtPc = .ok i) : coreStep s = exec i { s with pc := s.pc + 2#16, started := true } := by
  rw [coreStep_of_fetch hrun hpc, execWord, hw]

theorem coreStep_of_unsupported {s : State} {r : Reject} (hrun : s.run = .running) (hpc : s.pc.toNat + 1 < 4096)
    (hw : decodeWord s.wordAtPc = .error r) : coreStep s = .next (reported s) := by
  have haddr : s.pc + 2#16 - 2#16 = s.pc := BitVec.add_sub_cancel ..
  rw [coreStep_of_fetch hrun hpc, execWord, hw]
  simp only [execUnsupported, State.instrAddr, haddr]
  rfl

theorem coreStep_of_fetch_fault {s : State} (hrun : s.run = .running) (hpc : 0xFFF ≤ s.pc.toNat) :
    coreStep s = .next (fetchFaulted s) := by
  have hinfo : max 4096 s.pc.toNat = if 0x1000 ≤ s.pc.toNat then s.pc.toNat else 0x1000 := by
    split <;> omega
  rw [coreStep_of_running hrun, fetchFaulted, ← hinfo]
  exact cycle_of_fetch_fault (Nat.succ_le_succ hpc)

/-! ## The end of a run -/

/-- Inside the memory the pc fits the 12-bit target of a jump. -/
theorem setWidth_pc {pc : Word} (h : pc.toNat + 1 < 4096) : (pc.setWidth 12).setWidth 16 = pc := by
  apply BitVec.eq_of_toNat_eq
  simp only [BitVec.toNat_setWidth]
  omega

theorem coreStep_of_endOfRun {s : State} (h : s.EndOfRun) : coreStep s = .next { s with started := true } := by
  obtain ⟨hrun, hpc, hword⟩ := h
  have hdecode : decodeWord s.wordAtPc = .ok (.jp (s.pc.setWidth 12)) :=
    (congrArg decodeWord hword).trans (decodeOfEncodeIsTheInstruction _)
  rw [coreStep_of_decoded hrun hpc hdecode, exec_jp, setWidth_pc hpc]

end Sys2Proof.Machine

namespace Sys2Proof

open Sys2Proof.Decode Sys2Proof.Machine Sys2Proof.Claims

/-- Settles O5: a step with no event, or with a Step, is the core's Step, which fetches, advances and executes. -/
theorem stepRunsTheDecodedInstruction : Obligations.StepRunsTheDecodedInstruction := by
  unfold Obligations.StepRunsTheDecodedInstruction
  intro s i hrun hpc hbytes
  have hw : decodeWord s.wordAtPc = .ok i := decodeBytes_pair_ok hbytes
  constructor
  · intro h
    exact (step_of_no_event h).trans (coreStep_of_decoded hrun hpc hw)
  · intro rest h
    exact (step_of_event h).trans (coreStep_of_decoded (s := { s with schedule := rest }) hrun hpc hw)

/-- Settles O6: the schedule's head is the event, and an empty schedule is a Step. -/
theorem stepTakesTheNextHostEvent : Obligations.StepTakesTheNextHostEvent := by
  unfold Obligations.StepTakesTheNextHostEvent
  exact ⟨fun _ _ _ => step_of_event, fun _ => step_of_no_event⟩

/-- Settles O7: from 0xFFF on one of the two bytes is outside, and the fetch fault is taken before the advance. -/
theorem fetchOutsideMemoryFaults : Obligations.FetchOutsideMemoryFaults := by
  unfold Obligations.FetchOutsideMemoryFaults
  intro s hrun hpc
  constructor
  · intro h
    exact (step_of_no_event h).trans (coreStep_of_fetch_fault hrun hpc)
  · intro rest h
    exact (step_of_event h).trans (coreStep_of_fetch_fault (s := { s with schedule := rest }) hrun hpc)

/-- Settles O8: a word that decodes to nothing leaves its diagnostic, with the address before the advance. -/
theorem unsupportedWordOnlyReports : Obligations.UnsupportedWordOnlyReports := by
  unfold Obligations.UnsupportedWordOnlyReports
  intro s r hrun hpc hbytes
  have hw : decodeWord s.wordAtPc = .error r := decodeBytes_pair_error hbytes
  constructor
  · intro h
    exact (step_of_no_event h).trans (coreStep_of_unsupported hrun hpc hw)
  · intro rest h
    exact (step_of_event h).trans (coreStep_of_unsupported (s := { s with schedule := rest }) hrun hpc hw)

/-- Settles O9: the core's Step answers the state it is given. -/
theorem stepHasNoEffectWhileHeld : Obligations.StepHasNoEffectWhileHeld := by
  unfold Obligations.StepHasNoEffectWhileHeld
  intro s hrun
  constructor
  · intro h
    exact (step_of_no_event h).trans (coreStep_of_not_running hrun)
  · intro rest h
    exact (step_of_event h).trans (coreStep_of_not_running (s := { s with schedule := rest }) hrun)

/-- Settles O10: the word at pc is a jump to pc, by the round trip of its encoding. -/
theorem selfJumpEndsTheRun : Obligations.SelfJumpEndsTheRun := by
  unfold Obligations.SelfJumpEndsTheRun
  intro s hend
  refine ⟨fun h => ?_, fun rest h => ?_, fun rest => hend⟩
  · exact (step_of_no_event h).trans (coreStep_of_endOfRun hend)
  · exact (step_of_event h).trans (coreStep_of_endOfRun (s := { s with schedule := rest }) hend)

end Sys2Proof
end

section
/-! The loads and stores at I (42_index_memory.md R123 to R125; 20_memory.md R49, R52): bytes laid out from an address
on, what each instruction executes to inside the memory and across its end, and the obligations O24 to O28. -/

namespace Sys2Proof.Machine

open Sys2Proof.Decode Sys2Proof.Claims

/-! ## Bytes laid out from an address on -/

/-- An image touches no address outside it. -/
theorem Memory.read_writeImage_outside {x : Nat} : ∀ {m : Memory} {a : Nat} (bs : List Byte),
    x < a ∨ a + bs.length ≤ x → (m.writeImage a bs).read x = m.read x
  | _, _, [], _ => rfl
  | m, a, b :: bs, h => by
    simp only [List.length_cons] at h
    rw [Memory.writeImage, Memory.read_writeImage_outside bs (by omega), Memory.read_write_other b (by omega)]

/-- Byte j of an image inside the memory stands at a + j. -/
theorem Memory.read_writeImage_inside : ∀ {m : Memory} {a : Nat} (bs : List Byte) {j : Nat} {b : Byte},
    m.wf = true → bs.length ≤ 4096 - a → bs[j]? = some b → (m.writeImage a bs).read (a + j) = b
  | m, a, c :: bs, 0, b, hm, _, hj => by
    obtain rfl : c = b := by simpa using hj
    rw [Memory.writeImage, Nat.add_zero a, Memory.read_writeImage_below bs (Nat.lt_add_one a),
      Memory.read_write _ hm, if_pos rfl]
  | m, a, c :: bs, j + 1, b, hm, hlen, hj => by
    simp only [List.length_cons] at hlen
    rw [Memory.writeImage, ← Nat.add_assoc, Nat.add_right_comm]
    exact Memory.read_writeImage_inside bs (Memory.wf_write c hm (by omega)) (by omega) hj

/-- The bytes of a list stored one by one from address a on, as LD B,Vx stores its digits. -/
def storeBytes : Nat → List Byte → State → Result Unit
  | _, [], s => .ok () s
  | a, b :: bs, s => (writeByte a b s).bind fun _ s' => storeBytes (a + 1) bs s'

theorem storeBytes_ok : ∀ {a : Nat} (bs : List Byte) (s : State), a + bs.length ≤ 4096 →
    storeBytes a bs s = .ok () { s with mem := s.mem.writeImage a bs }
  | _, [], _, _ => rfl
  | a, b :: bs, s, h => by
    simp only [List.length_cons] at h
    rw [storeBytes, writeByte_of_lt b s (by omega), Result.bind_ok, storeBytes_ok bs _ (by omega)]
    rfl

/-- What fits is stored, and the first address outside is named (20_memory.md R49). -/
theorem storeBytes_raise : ∀ {a : Nat} (bs : List Byte) (s : State), bs ≠ [] → 4096 < a + bs.length →
    storeBytes a bs s =
      .raise .outOfBounds (some (max 4096 a)) { s with mem := s.mem.writeImage a (bs.take (4096 - a)) }
  | a, b :: bs, s, _, h => by
    simp only [List.length_cons] at h
    by_cases ha : a < 4096
    · have hne : bs ≠ [] := by
        rintro rfl
        simp only [List.length_nil] at h
        omega
      have htake : 4096 - a = (4096 - (a + 1)) + 1 := by omega
      have hmax : max 4096 (a + 1) = max 4096 a := by omega
      rw [storeBytes, writeByte_of_lt b s ha, Result.bind_ok, storeBytes_raise bs _ hne (by omega), htake, hmax]
      rfl
    · have hge := Nat.not_lt.mp ha
      rw [storeBytes, writeByte_of_ge b s hge, Result.bind_raise, Nat.max_eq_right hge, Nat.sub_eq_zero_of_le hge]
      rfl

/-- A block of n bytes at I, cut at the end of the memory, is a block stored. -/
theorem blockStored_writeImage {s t : State} {n : Nat} {f : Nat → Byte} (hwf : s.mem.wf = true)
    (ht : t.mem = s.mem.writeImage s.iReg.toNat (((List.range n).map f).take (4096 - s.iReg.toNat))) :
    BlockStored s t n f := by
  constructor
  · intro k hk hfit
    rw [ht]
    refine Memory.read_writeImage_inside _ hwf (List.length_take_le ..) ?_
    rw [List.getElem?_take_of_lt (by omega), List.getElem?_map, List.getElem?_range hk, Option.map_some]
  · intro a ha
    rw [ht]
    refine Memory.read_writeImage_outside _ ?_
    simp only [List.length_take, List.length_map, List.length_range]
    by_contra hin
    exact ha (a - s.iReg.toNat) (by omega) (by omega) (by omega)

/-! ## LD B,Vx -/

/-- The three bytes of LD B,Vx, in the order it stores them. -/
def bcdBytes (b : Byte) : List Byte := (List.range 3).map (bcdDigit b)

@[simp] theorem length_bcdBytes (b : Byte) : (bcdBytes b).length = 3 := rfl

theorem storeBytes_singleton (a : Nat) (b : Byte) (s : State) : storeBytes a [b] s = writeByte a b s := by
  show (writeByte a b s).bind (fun _ u => .ok () u) = writeByte a b s
  cases writeByte a b s <;> rfl

theorem storeBytes_cons_cons (a : Nat) (b c : Byte) (bs : List Byte) (s : State) :
    storeBytes a (b :: c :: bs) s = (writeByte a b s).bind fun _ u => storeBytes (a + 1) (c :: bs) u := rfl

/-- LD B,Vx stores its three digits one by one. -/
theorem exec_ldB_eq (x : Nibble) (s : State) :
    exec (.ldB x) s = finish (encode (.ldB x)) s (storeBytes s.iReg.toNat (bcdBytes (s.getV x)) s) := by
  have hbytes : bcdBytes (s.getV x) = [hundreds (s.getV x), tens (s.getV x), units (s.getV x)] := rfl
  simp only [hbytes, storeBytes_cons_cons, storeBytes_singleton]
  rfl

theorem exec_ldB_inside (x : Nibble) {s : State} (hwf : s.mem.wf = true) (h : s.iReg.toNat + 2 < 4096) :
    ∃ m, exec (.ldB x) s = .next { s with mem := m } ∧
      BlockStored s { s with mem := m } 3 (bcdDigit (s.getV x)) := by
  have hfit : (bcdBytes (s.getV x)).take (4096 - s.iReg.toNat) = bcdBytes (s.getV x) :=
    List.take_of_length_le (by rw [length_bcdBytes]; omega)
  refine ⟨_, ?_, blockStored_writeImage hwf rfl⟩
  rw [exec_ldB_eq, storeBytes_ok _ s (by rw [length_bcdBytes]; omega)]
  exact congrArg (fun bs => Host.Outcome.next { s with mem := s.mem.writeImage s.iReg.toNat bs }) hfit.symm

theorem exec_ldB_outside (x : Nibble) {s : State} (hwf : s.mem.wf = true) (h : 4096 ≤ s.iReg.toNat + 2) :
    ∃ m, exec (.ldB x) s =
        .next (faultOf (.ldB x) s { s with mem := m } .outOfBounds (some (max 4096 s.iReg.toNat))) ∧
      BlockStored s { s with mem := m } 3 (bcdDigit (s.getV x)) := by
  refine ⟨_, ?_, blockStored_writeImage hwf rfl⟩
  rw [exec_ldB_eq, storeBytes_raise (bcdBytes (s.getV x)) s (by simp [bcdBytes]) (by rw [length_bcdBytes]; omega)]
  rfl

/-! ## LD [I],Vx -/

/-- Registers stored from I up to the end of the block or of the memory are a block stored. -/
theorem StoredUpTo.blockStored {s : State} {n : Nat} {m : Memory}
    (h : StoredUpTo s 0 (min 4096 (s.ea n)) m) :
    BlockStored s { s with mem := m } n (fun k => s.getV (BitVec.ofNat 4 k)) := by
  obtain ⟨-, hin, hout⟩ := h
  simp only [State.ea] at hin hout
  constructor
  · intro k hk hfit
    have := hin (s.iReg.toNat + k) (by omega) (by omega)
    rwa [Nat.add_sub_cancel_left] at this
  · intro a ha
    refine hout a ?_
    by_contra hmem
    exact ha (a - s.iReg.toNat) (by omega) (by omega) (by omega)

theorem exec_storeRegs_inside (x : Nibble) {s : State} (hwf : s.mem.wf = true)
    (h : s.iReg.toNat + x.toNat < 4096) :
    ∃ m, exec (.storeRegs x) s = .next { s with mem := m } ∧
      BlockStored s { s with mem := m } (x.toNat + 1) (fun k => s.getV (BitVec.ofNat 4 k)) := by
  obtain ⟨m, hm, hst⟩ := forEach_storeReg_ok (x.toNat + 1) 0 s hwf (by simp only [State.ea]; omega)
  refine ⟨m, ?_, StoredUpTo.blockStored ?_⟩
  · show execStoreRegs x s = _
    rw [execStoreRegs, regsUpTo_eq, hm, finish_ok]
  · rw [Nat.zero_add] at hst
    rwa [Nat.min_eq_right (by simp only [State.ea]; omega)]

theorem exec_storeRegs_outside (x : Nibble) {s : State} (hwf : s.mem.wf = true)
    (h : 4096 ≤ s.iReg.toNat + x.toNat) :
    ∃ m, exec (.storeRegs x) s =
        .next (faultOf (.storeRegs x) s { s with mem := m } .outOfBounds (some (max 4096 s.iReg.toNat))) ∧
      BlockStored s { s with mem := m } (x.toNat + 1) (fun k => s.getV (BitVec.ofNat 4 k)) := by
  obtain ⟨m, hm, hst⟩ := forEach_storeReg_raise (x.toNat + 1) 0 s hwf (Nat.succ_pos _)
    (by simp only [State.ea]; omega)
  refine ⟨m, ?_, StoredUpTo.blockStored ?_⟩
  · show execStoreRegs x s = _
    rw [execStoreRegs, regsUpTo_eq, hm]
    rfl
  · rwa [Nat.min_eq_left (by simp only [State.ea]; omega)]

/-! ## LD Vx,[I] -/

theorem exec_loadRegs_inside (x : Nibble) {s : State} (h : s.iReg.toNat + x.toNat < 4096) :
    ∃ t, exec (.loadRegs x) s = .next t ∧ LoadedUpTo s 0 (x.toNat + 1) t := by
  obtain ⟨t, ht, hl⟩ := forEach_loadReg_ok (x.toNat + 1) 0 s (by omega) (by simp only [State.ea]; omega)
  refine ⟨t, ?_, by rwa [Nat.zero_add] at hl⟩
  show execLoadRegs x s = _
  rw [execLoadRegs, regsUpTo_eq, ht, finish_ok]

theorem exec_loadRegs_outside (x : Nibble) {s : State} (h : 4096 ≤ s.iReg.toNat + x.toNat) :
    ∃ t, exec (.loadRegs x) s =
        .next (faultOf (.loadRegs x) s t .outOfBounds (some (max 4096 s.iReg.toNat))) ∧
      LoadedUpTo s 0 (4096 - s.iReg.toNat) t := by
  obtain ⟨t, ht, hl⟩ := forEach_loadReg_raise (x.toNat + 1) 0 s (by omega) (Nat.succ_pos _)
    (by simp only [State.ea]; omega)
  refine ⟨t, ?_, hl⟩
  show execLoadRegs x s = _
  rw [execLoadRegs, regsUpTo_eq, ht]
  rfl

/-- A block loaded where one was stored gives back the registers stored. -/
theorem LoadedUpTo.getV_of_stored {s t u w : State} {x : Nibble} (hfit : s.iReg.toNat + x.toNat < 4096)
    (hst : BlockStored s t (x.toNat + 1) (fun k => s.getV (BitVec.ofNat 4 k))) (hmem : u.mem = t.mem)
    (hi : u.iReg = s.iReg) (hw : LoadedUpTo u 0 (x.toNat + 1) w) {r : Nibble} (hr : r.toNat ≤ x.toNat) :
    w.getV r = s.getV r := by
  obtain ⟨-, hin, -⟩ := hw
  have hbyte := hst.1 r.toNat (by omega) (by omega)
  rw [hin r (by omega) (by omega), State.ea, hi, hmem]
  exact hbyte.trans (congrArg s.getV (regOf_toNat r))

/-- Two bytes stored by LD [I],V1 where the pc points are the word at the pc. -/
theorem wordAtPc_of_stored {s t : State} (hfit : s.iReg.toNat + 1 < 4096)
    (hst : BlockStored s t 2 (fun k => s.getV (BitVec.ofNat 4 k))) (hpc : t.pc = s.iReg) :
    t.wordAtPc = wordOfBytes (s.getV 0x0#4) (s.getV 0x1#4) := by
  have h0 := hst.1 0 (by omega) (by omega)
  have h1 := hst.1 1 (by omega) hfit
  rw [State.wordAtPc, hpc, h1]
  exact congrArg (wordOfBytes · _) h0

end Sys2Proof.Machine

namespace Sys2Proof

open Sys2Proof.Decode Sys2Proof.Machine

/-- Settles O24: the digits are an image at I, cut where the memory ends. -/
theorem bcdStoresThreeDigits : Obligations.BcdStoresThreeDigits := by
  unfold Obligations.BcdStoresThreeDigits
  refine ⟨fun _ => decodeWord_ldB, fun s x hwf => ⟨fun h => ?_, fun h => ?_⟩⟩
  · obtain ⟨m, hm, hst⟩ := exec_ldB_inside x hwf h
    exact ⟨_, hm, hst, rfl⟩
  · obtain ⟨m, hm, hst⟩ := exec_ldB_outside x hwf h
    exact ⟨_, hm, hst, rfl⟩

/-- Settles O25: by the run of stores from I, inside the memory and across its end. -/
theorem blockStoreWritesV0ToVx : Obligations.BlockStoreWritesV0ToVx := by
  unfold Obligations.BlockStoreWritesV0ToVx
  refine ⟨fun _ => decodeWord_storeRegs, fun s x hwf => ⟨fun h => ?_, fun h => ?_⟩⟩
  · obtain ⟨m, hm, hst⟩ := exec_storeRegs_inside x hwf h
    exact ⟨_, hm, hst, rfl⟩
  · obtain ⟨m, hm, hst⟩ := exec_storeRegs_outside x hwf h
    exact ⟨_, hm, hst, rfl⟩

/-- Settles O26: by the run of loads from I, inside the memory and across its end. -/
theorem blockLoadFillsV0ToVx : Obligations.BlockLoadFillsV0ToVx := by
  unfold Obligations.BlockLoadFillsV0ToVx
  refine ⟨fun _ => decodeWord_loadRegs, fun s x => ?_⟩
  by_cases h : s.iReg.toNat + x.toNat < 4096
  · obtain ⟨t, ht, heq, hin, hout⟩ := exec_loadRegs_inside x h
    exact ⟨t, ht, fun r hr _ => hin r (Nat.zero_le _) (by omega), fun r hr => hout r (by omega), fun _ => heq,
      fun hge => absurd h (by omega)⟩
  · obtain ⟨t, ht, heq, hin, hout⟩ := exec_loadRegs_outside x (Nat.not_lt.mp h)
    refine ⟨_, ht, fun r hr hfit => hin r (Nat.zero_le _) (by omega), fun r hr => hout r (by omega),
      fun hlt => absurd hlt h, fun _ => ?_⟩
    rw [heq]
    rfl

/-- Settles O27: the load reads the addresses the store wrote, and its frame is that of the state it executes in. -/
theorem blockLoadGivesBackTheBlockStored : Obligations.BlockLoadGivesBackTheBlockStored := by
  unfold Obligations.BlockLoadGivesBackTheBlockStored
  intro s t u x hwf hfit hstore hmem hi
  obtain ⟨m, hm, hst⟩ := exec_storeRegs_inside x hwf hfit
  obtain rfl : { s with mem := m } = t := Host.Outcome.next.inj (hm.symm.trans hstore)
  have hiu : u.iReg = s.iReg := hi
  obtain ⟨w, hw, hl⟩ := exec_loadRegs_inside x (s := u) (by rw [hiu]; exact hfit)
  have hback : ∀ r : Nibble, r.toNat ≤ x.toNat → w.getV r = s.getV r := fun r hr =>
    hl.getV_of_stored hfit hst hmem hiu hr
  obtain ⟨hframe, -, hout⟩ := hl
  exact ⟨w, hw, hback, fun r hr => hout r (.inr hr), hframe⟩

/-- Settles O28: the next fetch reads the two bytes just stored. -/
theorem storedBytesAreTheNextInstruction : Obligations.StoredBytesAreTheNextInstruction := by
  unfold Obligations.StoredBytesAreTheNextInstruction
  intro s t i hwf hfit hpc hrun hsch hbytes hstore
  obtain ⟨m, hm, hst⟩ := exec_storeRegs_inside 0x1#4 hwf hfit
  obtain rfl : { s with mem := m } = t := Host.Outcome.next.inj (hm.symm.trans hstore)
  have hword := wordAtPc_of_stored hfit hst hpc
  have hdecode := (congrArg decodeWord hword).trans (decodeBytes_pair_ok hbytes)
  have hfetch : s.pc.toNat + 1 < 4096 := by rw [hpc]; exact hfit
  exact (step_of_no_event (s := { s with mem := m }) hsch).trans (coreStep_of_decoded hrun hfetch hdecode)

end Sys2Proof
end

section
/-! DRW (43_display.md R141 to R147): the rows it reads, the pixels they cover, what it executes to on either side of
the end of the memory, and the obligations O30, O31 and O32. -/

namespace Sys2Proof.Machine

open Sys2Proof.Claims

/-! ## The rows of the sprite at I -/

/-- The n bytes at I, I+1, ... -/
def spriteRows (s : State) (n : Nibble) : List Byte :=
  (List.range n.toNat).map fun r => s.mem.read (s.iReg.toNat + r)

theorem getElem?_spriteRows {s : State} {n : Nibble} {j : Nat} {row : Byte} :
    (spriteRows s n)[j]? = some row ↔ j < n.toNat ∧ s.mem.read (s.iReg.toNat + j) = row := by
  by_cases h : j < n.toNat <;> simp [spriteRows, h]

theorem length_spriteRows_le (s : State) (n : Nibble) : (spriteRows s n).length ≤ 32 := by
  simp only [spriteRows, List.length_map, List.length_range]
  omega

theorem place_eq_iff {x0 y0 r c : Nat} {q : Place} :
    place x0 y0 r c = q ↔ q.1.val = (x0 + c) % 64 ∧ q.2.val = (y0 + r) % 32 := by
  simp only [place, spriteColumn, spriteRow, Prod.ext_iff, Fin.ext_iff, Fin.val_ofNat]
  exact and_congr eq_comm eq_comm

/-- The places the blit covers are those under a 1 bit of the sprite at I. -/
theorem covers_spriteRows {s : State} {x y n : Nibble} {q : Place} :
    Covers (s.getV x) (s.getV y) (spriteRows s n) q ↔ UnderSpriteBit s x y n q.1 q.2 := by
  simp only [Covers, UnderSpriteBit, getElem?_spriteRows, place_eq_iff, spriteBit]
  constructor
  · rintro ⟨r, row, c, ⟨hr, rfl⟩, h⟩
    exact ⟨r, c, hr, h⟩
  · rintro ⟨r, c, hr, h⟩
    exact ⟨r, _, c, ⟨hr, rfl⟩, h⟩

/-- A DRW that moves neither I, memory nor its coordinates leaves the sprite where it was. -/
theorem underSpriteBit_congr {s t : State} {x y n : Nibble} {px : Fin 64} {py : Fin 32} (hmem : t.mem = s.mem)
    (hi : t.iReg = s.iReg) (hx : t.getV x = s.getV x) (hy : t.getV y = s.getV y) :
    UnderSpriteBit t x y n px py ↔ UnderSpriteBit s x y n px py := by
  simp only [UnderSpriteBit, hmem, hi, hx, hy]

/-! ## What DRW executes to -/

theorem exec_drw_inside {s : State} {x y n : Nibble} (h : n.toNat = 0 ∨ s.iReg.toNat + n.toNat ≤ 4096) :
    exec (.drw x y n) s = .next (blitRows (s.getV x) (s.getV y) (spriteRows s n) s) := by
  have hrows : readBytes (s.ea 0) (rowOffsets n) s = .ok (spriteRows s n) s :=
    readBytes_ok (s.ea 0) s fun k hk => by
      simp only [rowOffsets, List.mem_range] at hk
      simp only [State.ea]
      omega
  show execDrw x y n s = _
  rw [execDrw, hrows]
  rfl

theorem exec_drw_outside {s : State} {x y n : Nibble} (h0 : 0 < n.toNat) (h : 4096 < s.iReg.toNat + n.toNat) :
    exec (.drw x y n) s =
      .next (faultOf (.drw x y n) s s .outOfBounds (some (max 4096 s.iReg.toNat))) := by
  have hread := readBytes_raise (s.ea 0) s n.toNat 0 h0 (by simp only [State.ea]; omega)
  show execDrw x y n s = _
  rw [execDrw, rowOffsets_eq, hread]
  rfl

/-! ## The blit of the sprite at I -/

theorem pixel_blitRows (s : State) (x y n : Nibble) (px : Fin 64) (py : Fin 32) :
    pixel (blitRows (s.getV x) (s.getV y) (spriteRows s n) s).fb px py = true ↔
      (pixel s.fb px py = true ↔ ¬ UnderSpriteBit s x y n px py) := by
  have h := (drawSprite_spec (s.getV x) (s.getV y) (spriteRows s n) s.fb (length_spriteRows_le s n)).1 (px, py)
  rwa [covers_spriteRows] at h

/-- The collision of the blit of the sprite at I. -/
def collides (s : State) (x y n : Nibble) : Bool :=
  (drawSprite (s.getV x) (s.getV y) (spriteRows s n) s.fb).2

theorem collides_iff {s : State} {x y n : Nibble} :
    collides s x y n = true ↔ ∃ px py, pixel s.fb px py = true ∧ UnderSpriteBit s x y n px py := by
  have h := (drawSprite_spec (s.getV x) (s.getV y) (spriteRows s n) s.fb (length_spriteRows_le s n)).2
  simp only [covers_spriteRows, Prod.exists] at h
  rw [collides, h]
  exact exists_congr fun px => exists_congr fun py => and_comm

theorem getV_vf_blitRows (s : State) (x y n : Nibble) :
    (blitRows (s.getV x) (s.getV y) (spriteRows s n) s).getV vf = flagByte (collides s x y n) :=
  State.getV_setV_same ..

theorem getV_blitRows_other (s : State) (x0 y0 : Byte) (rows : List Byte) {r : Nibble} (hr : r ≠ vf) :
    (blitRows x0 y0 rows s).getV r = s.getV r := State.getV_setV_other _ _ hr

theorem blitRows_eq (s : State) (x0 y0 : Byte) (rows : List Byte) :
    blitRows x0 y0 rows s = { s with fb := (blitRows x0 y0 rows s).fb, v := (blitRows x0 y0 rows s).v } := rfl

theorem flagByte_eq_one_iff {c : Bool} : flagByte c = 1#8 ↔ c = true := by
  cases c <;> decide

end Sys2Proof.Machine

namespace Sys2Proof

open Sys2Proof.Decode Sys2Proof.Machine Sys2Proof.Claims

/-- Settles O30: the rows are read whole, and the blit toggles what they cover and reports what it found set. -/
theorem drwXorsTheSpriteAndReportsCollision : Obligations.DrwXorsTheSpriteAndReportsCollision := by
  unfold Obligations.DrwXorsTheSpriteAndReportsCollision
  refine ⟨fun _ => decodeWord_drw, fun s x y n h =>
    ⟨_, exec_drw_inside h, pixel_blitRows s x y n, fun hc => ?_, fun hc => ?_,
      fun r hr => getV_blitRows_other s _ _ _ hr, blitRows_eq ..⟩⟩
  · rw [getV_vf_blitRows, collides_iff.mpr hc, flagByte_true]
  · rw [getV_vf_blitRows, Bool.eq_false_iff.mpr (mt collides_iff.mp hc), flagByte_false]

/-- Settles O31: the read of the rows raises before a pixel changes. -/
theorem drwOutsideMemoryFaults : Obligations.DrwOutsideMemoryFaults := by
  unfold Obligations.DrwOutsideMemoryFaults
  intro s x y n h0 h
  exact exec_drw_outside h0 h

/-- Settles O32: the second draw covers the same pixels, so it toggles them back; one it finds set was unset before
the first. -/
theorem drawingTwiceRestoresTheDisplay : Obligations.DrawingTwiceRestoresTheDisplay := by
  unfold Obligations.DrawingTwiceRestoresTheDisplay
  intro s t x y n hx hy h hdraw
  obtain rfl := Host.Outcome.next.inj ((exec_drw_inside h).symm.trans hdraw)
  generalize ht : blitRows (s.getV x) (s.getV y) (spriteRows s n) s = t
  have hfirst : ∀ px py, pixel t.fb px py = true ↔ (pixel s.fb px py = true ↔ ¬ UnderSpriteBit s x y n px py) := by
    intro px py
    rw [← ht, pixel_blitRows]
  have hi : t.iReg = s.iReg := by rw [← ht, blitRows_iReg]
  have hsame : ∀ px py, UnderSpriteBit t x y n px py ↔ UnderSpriteBit s x y n px py := by
    intro px py
    refine underSpriteBit_congr ?_ hi ?_ ?_ <;> rw [← ht]
    · rw [blitRows_mem]
    · exact getV_blitRows_other s _ _ _ hx
    · exact getV_blitRows_other s _ _ _ hy
  refine ⟨_, exec_drw_inside (by rwa [hi]), fun px py => ?_, ?_, blitRows_eq ..⟩
  · rw [Bool.eq_iff_iff, pixel_blitRows, hfirst, hsame]
    tauto
  · rw [getV_vf_blitRows, flagByte_eq_one_iff, collides_iff]
    refine exists_congr fun px => exists_congr fun py => ?_
    rw [hfirst, hsame, ← Bool.not_eq_true]
    tauto

end Sys2Proof
end

section
/-! The keypad, the timers, the key map, the load and reset (44_keypad_timers.md; 60_exceptions.md R194 to R199;
70_reset_and_hazards.md R220 to R224): what each event answers, and the obligations O33, O35 to O38, O40 and O42 to
O45. -/

namespace Sys2Proof.Machine

open Sys2Proof.Claims

/-! ## SKP and SKNP -/

theorem exec_skp_of_lt {x : Nibble} {s : State} (h : (s.getV x).toNat < 16) :
    exec (.skp x) s = .next (s.skipIf s.key[(s.getV x).toNat]) := by
  show execSkp x s = _
  rw [execSkp, isPressed_of_lt s h, Result.bind_ok, finish_ok]

theorem exec_sknp_of_lt {x : Nibble} {s : State} (h : (s.getV x).toNat < 16) :
    exec (.sknp x) s = .next (s.skipIf !s.key[(s.getV x).toNat]) := by
  show execSknp x s = _
  rw [execSknp, isPressed_of_lt s h, Result.bind_ok, finish_ok]

theorem exec_skp_of_ge {x : Nibble} {s : State} (h : 16 ≤ (s.getV x).toNat) :
    exec (.skp x) s = .next (faultOf (.skp x) s s .outOfBounds (some (s.getV x).toNat)) := by
  show execSkp x s = _
  rw [execSkp, isPressed_of_ge s h, Result.bind_raise]
  rfl

theorem exec_sknp_of_ge {x : Nibble} {s : State} (h : 16 ≤ (s.getV x).toNat) :
    exec (.sknp x) s = .next (faultOf (.sknp x) s s .outOfBounds (some (s.getV x).toNat)) := by
  show execSknp x s = _
  rw [execSknp, isPressed_of_ge s h, Result.bind_raise]
  rfl

theorem State.skipIf_not (s : State) (p : Bool) :
    s.skipIf (!p) = if p = false then { s with pc := s.pc + 2#16 } else s := by
  cases p <;> rfl

/-! ## LD Vx,K and the events of a key wait -/

theorem exec_ldVxK (x : Nibble) (s : State) : exec (.ldVxK x) s = .next { s with waitX := x, run := .waitKey } := rfl

theorem hostEvent_keyDown (k : Nat) (s : State) : hostEvent (.keyDown k) s = .next (s.keyDown k).start := rfl

theorem hostEvent_keyUp (k : Nat) (s : State) : hostEvent (.keyUp k) s = .next (s.keyUp k).start := rfl

theorem hostEvent_tick (s : State) : hostEvent .tick s = .next s.tick.start := rfl

/-- A key-down in a key wait is one register write, in the state in which its flag is set and the core runs. -/
theorem State.keyDown_start_of_waiting {s : State} {k : Nat} (hr : s.run = .waitKey) (h : k < 16) :
    (s.keyDown k).start =
      ({ s with key := s.key.set k true h, run := .running, started := true } : State).setV s.waitX
        (BitVec.ofNat 8 k) := by
  rw [State.keyDown_of_waiting hr h]
  rfl

theorem State.keyDown_key (s : State) {k : Nat} (h : k < 16) : (s.keyDown k).key = s.key.set k true h := by
  by_cases hr : s.run = .waitKey
  · rw [State.keyDown_of_waiting hr h]
  · rw [State.keyDown_of_not_waiting hr h]

/-! ## Timers -/

/-- A timer counts down to zero and rests there (60_exceptions.md R194). -/
theorem countDown_eq (t : Byte) : countDown t = BitVec.ofNat 8 (t.toNat - 1) := by
  apply BitVec.eq_of_toNat_eq
  have := t.isLt
  unfold countDown
  split
  · simp only [BitVec.toNat_sub, BitVec.toNat_ofNat]
    omega
  · simp only [BitVec.toNat_ofNat]
    omega

/-! ## The key map -/

/-- The first slot that holds h (60_exceptions.md R198). -/
theorem virtualCodeOf_of_first {table : KeyMap} {h : HostKeyId} {k : Nat} (hk : table[k]? = some h)
    (hfirst : ∀ j : Nat, j < k → table[j]? ≠ some h) : virtualCodeOf table h = some k := by
  obtain ⟨hlt, hslot⟩ := Vector.getElem?_eq_some_iff.mp hk
  refine List.findIdx?_eq_some_iff_getElem.mpr ⟨by simpa using hlt, by simpa using hslot, fun j hj => ?_⟩
  have hne := hfirst j hj
  rw [Vector.getElem?_eq_getElem (by omega)] at hne
  simpa using hne

theorem virtualCodeOf_of_absent {table : KeyMap} {h : HostKeyId} (habs : ∀ j : Nat, table[j]? ≠ some h) :
    virtualCodeOf table h = none := by
  refine List.findIdx?_eq_none_iff.mpr fun g hg => ?_
  obtain ⟨j, hj, rfl⟩ := List.getElem_of_mem hg
  have hne := habs j
  rw [Vector.getElem?_eq_getElem (by simpa using hj)] at hne
  simpa using hne

theorem State.resolveKey_of_installed {s : State} {table : KeyMap} (h : HostKeyId) (hs : s.keyMap = some table) :
    s.resolveKey h = virtualCodeOf table h := by
  rw [State.resolveKey, hs]

theorem hostKey_of_resolved {s : State} {h : HostKeyId} {k : Nat} (hk : s.resolveKey h = some k) :
    hostEvent (.hostKeyDown h) s = hostEvent (.keyDown k) s ∧ hostEvent (.hostKeyUp h) s = hostEvent (.keyUp k) s := by
  simp only [hostEvent, deliverKey, hk, and_self]

theorem hostKey_of_unresolved {s : State} {h : HostKeyId} (hk : s.resolveKey h = none) :
    hostEvent (.hostKeyDown h) s = .next s ∧ hostEvent (.hostKeyUp h) s = .next s := by
  simp only [hostEvent, deliverKey, hk, and_self]

/-! ## What the start-up allows (70_reset_and_hazards.md R222) -/

theorem installMapping_of_open (table : KeyMap) {s : State} (hs : s.started = false) (hm : s.mapped = false) :
    installMapping table s = .next { s with keyMap := some table, mapped := true } := by
  simp [installMapping, hs, hm, State.setMapping]

theorem loadImage_of_fits {image : List Byte} {s : State} (hs : s.started = false)
    (hlen : 0x200 + image.length ≤ 4096) :
    loadImage image s = .next { s with mem := s.mem.writeImage 0x200 image } := by
  have hfit : ¬ Config.programBase + image.length > Config.memSize := Nat.not_lt.mpr hlen
  simp [loadImage, hs, if_neg hfit]

theorem loadImage_of_long {image : List Byte} {s : State} (hs : s.started = false)
    (hlen : 4096 < 0x200 + image.length) : loadImage image s = .refused .romTooLarge := by
  have hlong : Config.programBase + image.length > Config.memSize := hlen
  simp [loadImage, hs, if_pos hlong]

theorem loadImage_of_started {s : State} (image : List Byte) (hs : s.started = true) :
    loadImage image s = .refused .loadAfterStart := by
  simp [loadImage, hs]

end Sys2Proof.Machine

namespace Sys2Proof

open Sys2Proof.Decode Sys2Proof.Machine Sys2Proof.Claims

/-- Settles O33: the flag of a key below 16 is asked for, and a code from 16 on is the one fault. -/
theorem keySkipsTestTheKeyFlag : Obligations.KeySkipsTestTheKeyFlag := by
  unfold Obligations.KeySkipsTestTheKeyFlag
  refine ⟨fun w h => ⟨decodeWord_skp h, decodeWord_sknp h⟩, fun s x => ⟨fun p hp => ?_, fun hge => ?_⟩⟩
  · obtain ⟨hlt, rfl⟩ := Vector.getElem?_eq_some_iff.mp hp
    exact ⟨exec_skp_of_lt hlt, by rw [exec_sknp_of_lt hlt, State.skipIf_not]⟩
  · exact ⟨exec_skp_of_ge hge, exec_sknp_of_ge hge⟩

/-- Settles O35: the key-down that ends the wait is one register write; the other four events leave the wait's fields
alone. -/
theorem keyWaitEndsWithAKeyDown : Obligations.KeyWaitEndsWithAKeyDown := by
  unfold Obligations.KeyWaitEndsWithAKeyDown
  refine ⟨fun _ => decodeWord_ldVxK, fun s x => exec_ldVxK x s, fun s k h hr => ?_, fun s t k hr h => ?_⟩
  · refine ⟨_, hostEvent_keyDown k s, ?_⟩
    rw [State.keyDown_start_of_waiting hr h]
    exact registerWritten_setV ..
  · have hheld : s.run ≠ .running := by rw [hr]; decide
    rcases h with h | h | h | h
    · obtain rfl : s = t := Host.Outcome.next.inj ((coreStep_of_not_running hheld).symm.trans h)
      exact ⟨hr, rfl, rfl, rfl⟩
    · obtain rfl := Host.Outcome.next.inj ((hostEvent_tick s).symm.trans h)
      exact ⟨hr, rfl, rfl, rfl⟩
    · obtain rfl := Host.Outcome.next.inj ((hostEvent_keyUp k s).symm.trans h)
      simp [State.keyUp, hr]
    · obtain rfl := Host.Outcome.next.inj ((hostEvent_keyDown (k + 16) s).symm.trans h)
      rw [State.keyDown_of_ge s (Nat.le_add_left 16 k)]
      exact ⟨hr, rfl, rfl, rfl⟩

/-- Settles O36: both timers take the same count down. -/
theorem tickCountsDownToZero : Obligations.TickCountsDownToZero := by
  unfold Obligations.TickCountsDownToZero
  intro s
  rw [← countDown_eq, ← countDown_eq]
  rfl

/-- Settles O37: below 16 one flag is written, from 16 on none. -/
theorem keyEventsSetOneFlag : Obligations.KeyEventsSetOneFlag := by
  unfold Obligations.KeyEventsSetOneFlag
  refine ⟨fun s k h => ⟨⟨_, hostEvent_keyDown k s, s.keyDown_key h⟩, fun hr => ?_, ?_⟩, fun s k h => ⟨?_, ?_⟩⟩
  · rw [hostEvent_keyDown, State.keyDown_of_not_waiting hr h]
    rfl
  · rw [hostEvent_keyUp, State.keyUp, State.setKey_of_lt s false h]
    rfl
  · rw [hostEvent_keyDown, State.keyDown_of_ge s h]
    rfl
  · rw [hostEvent_keyUp, State.keyUp, State.setKey_of_ge s false h]
    rfl

/-- Settles O38: the two marks are the only thing the event asks for. -/
theorem keyMapIsInstalledOnceBeforeTheStart : Obligations.KeyMapIsInstalledOnceBeforeTheStart := by
  unfold Obligations.KeyMapIsInstalledOnceBeforeTheStart
  intro s table
  refine ⟨fun hs hm => ?_, fun hs hm => ?_, fun hs => ?_⟩
  · exact installMapping_of_open table hs hm
  · simp [hostEvent, installMapping, hs, hm]
  · simp [hostEvent, installMapping, hs]

/-- Settles O40: the search for h in the table ends at its first slot. -/
theorem hostKeysResolveToTheFirstSlot : Obligations.HostKeysResolveToTheFirstSlot := by
  unfold Obligations.HostKeysResolveToTheFirstSlot
  refine ⟨fun s table h k hs hk hfirst => ?_, fun s table h hs habs => ?_, fun s h hs => ?_⟩
  · exact hostKey_of_resolved ((s.resolveKey_of_installed h hs).trans (virtualCodeOf_of_first hk hfirst))
  · exact hostKey_of_unresolved ((s.resolveKey_of_installed h hs).trans (virtualCodeOf_of_absent habs))
  · exact hostKey_of_unresolved (by rw [State.resolveKey, hs])

/-- Settles O42: the image is laid out from 0x200 on, after the two checks. -/
theorem programLoadStoresTheImage : Obligations.ProgramLoadStoresTheImage := by
  unfold Obligations.ProgramLoadStoresTheImage
  intro s image
  refine ⟨fun hs hwf hlen => ?_, fun hs hlen => ?_, fun hs => ?_⟩
  · exact ⟨_, loadImage_of_fits hs (by omega), fun j b hj => Memory.read_writeImage_inside image hwf hlen hj,
      fun a ha => Memory.read_writeImage_outside image ha, rfl⟩
  · exact loadImage_of_long hs (by omega)
  · exact loadImage_of_started image hs

/-- Settles O43: each mode by its own case of the pulse. -/
theorem soundPulseFollowsTheMode : Obligations.SoundPulseFollowsTheMode := by
  unfold Obligations.SoundPulseFollowsTheMode
  intro s
  refine ⟨fun h => ?_, fun h => ?_, rfl, rfl, bne_iff_ne⟩
  · rw [hostEvent, h]
    rfl
  · rw [hostEvent, h]
    rfl

/-- Settles O44: the event is `applyReset`, whatever RUN is. -/
theorem resetEventGivesTheResetState : Obligations.ResetEventGivesTheResetState := by
  unfold Obligations.ResetEventGivesTheResetState
  exact fun _ => rfl

/-- Settles O45: every register is one of a replicated vector, and memory lists nothing above the font. -/
theorem resetStateHoldsTheTableOfR30 : Obligations.ResetStateHoldsTheTableOfR30 := by
  unfold Obligations.ResetStateHoldsTheTableOfR30
  refine ⟨fun x => ?_, rfl, rfl, rfl, rfl, rfl, fun k t ht => ?_, pixel_clearDisplay, fun k p hp => ?_, rfl, rfl, rfl,
    rfl, fun a ha => ?_⟩
  · exact Vector.getElem_replicate ..
  · obtain ⟨_, rfl⟩ := Vector.getElem?_eq_some_iff.mp ht
    exact Vector.getElem_replicate ..
  · obtain ⟨_, rfl⟩ := Vector.getElem?_eq_some_iff.mp hp
    exact Vector.getElem_replicate ..
  · exact List.getD_eq_default _ _ ha

end Sys2Proof
end

section
/-! Everything an instruction can do, said once: the effects, which instruction has which, and from them what each
instruction leaves unchanged, with the obligations O50 and O52 to O57. -/

namespace Sys2Proof.Machine

open Sys2Proof.Claims

/-! ## The effects -/

/-- What instruction i can leave of state s, by what it writes. Every field an effect does not name is that of s. -/
inductive Effect (s : State) : Instr → State → Prop
  /-- General registers are written, those of the access table only (10_state.md R10). -/
  | registers {i : Instr} (v : Vector Byte 16)
      (hkeep : ∀ r, r ∉ destRegs i → ({ s with v := v } : State).getV r = s.getV r) : Effect s i { s with v := v }
  /-- RND writes its register and counts its draw (log 2). -/
  | draw (x : Nibble) (kk b : Byte) : Effect s (.rnd x kk) (({ s with draws := s.draws + 1 } : State).setV x b)
  /-- A jump goes no further than the highest target of JP V0 (10_state.md R16). -/
  | jump {i : Instr} (t : Word) (hi : (∃ nnn, i = .jp nnn) ∨ ∃ nnn, i = .jpV0 nnn) (ht : t.toNat ≤ 0x10FE) :
      Effect s i (s.setPc t)
  /-- A skip is taken or not (40_control_transfer.md R88). -/
  | skip {i : Instr} (c : Bool) (hi : isTransfer i = true) : Effect s i (s.skipIf c)
  | call (nnn : Addr12) (h : s.sp.toNat < 16) :
      Effect s (.call nnn) { s with stack := s.stack.set s.sp.toNat s.pc h, sp := s.sp + 1#8, pc := target nnn }
  | ret (h0 : s.sp.toNat ≠ 0) (h : s.sp.toNat - 1 < 16) :
      Effect s .ret { s with pc := s.stack[s.sp.toNat - 1], sp := s.sp - 1#8 }
  /-- I is written (10_state.md R12). -/
  | index {i : Instr} (a : Word) (hi : (∃ nnn, i = .ldI nnn) ∨ (∃ x, i = .addI x) ∨ ∃ x, i = .ldF x) :
      Effect s i { s with iReg := a }
  /-- Memory is stored to (20_memory.md R42). -/
  | stored {i : Instr} (m : Memory) (hm : MemoryStored s (storedAddrs s i) m) : Effect s i { s with mem := m }
  | clear : Effect s .cls { s with fb := clearDisplay }
  | blit (x y n : Nibble) (x0 y0 : Byte) (rows : List Byte) : Effect s (.drw x y n) (blitRows x0 y0 rows s)
  | delay (x : Nibble) : Effect s (.ldDtVx x) { s with dt := s.getV x }
  | sound (x : Nibble) : Effect s (.ldStVx x) { s with st := s.getV x }
  | wait (x : Nibble) : Effect s (.ldVxK x) { s with waitX := x, run := .waitKey }
  /-- A fault is taken, in a state in which registers may have been loaded or bytes stored (60_exceptions.md R188). -/
  | faulted {i : Instr} (v : Vector Byte 16) (m : Memory) (info : Option Nat) (hi : canFault i = true)
      (hkeep : ∀ r, r ∉ destRegs i → ({ s with v := v } : State).getV r = s.getV r)
      (hm : MemoryStored s (storedAddrs s i) m) :
      Effect s i (faultOf i s { s with v := v, mem := m } (faultKindOf i) info)

/-! ## Which instruction has which -/

theorem memoryStored_self (s : State) (addrs : List Nat) : MemoryStored s addrs s.mem := ⟨id, fun _ _ => rfl⟩

theorem Effect.of_setV {s : State} {i : Instr} {x : Nibble} (hx : x ∈ destRegs i) (b : Byte) :
    Effect s i (s.setV x b) :=
  .registers _ fun _ hr => s.getV_setV_other b fun e => hr (e ▸ hx)

theorem Effect.of_setFlagThenV {s : State} {i : Instr} {x : Nibble} (hx : x ∈ destRegs i) (hf : vf ∈ destRegs i)
    (c : Bool) (b : Byte) : Effect s i (s.setFlagThenV c x b) :=
  .registers _ fun r hr => by
    have hrx : r ≠ x := fun e => hr (e ▸ hx)
    have hrf : r ≠ vf := fun e => hr (e ▸ hf)
    exact (s.getV_setFlagThenV c x r b).trans (by rw [if_neg hrx, if_neg hrf])

/-- A fault with nothing written before it. -/
theorem Effect.of_fault {s : State} {i : Instr} (hi : canFault i = true) (info : Option Nat) :
    Effect s i (faultOf i s s (faultKindOf i) info) :=
  .faulted s.v s.mem info hi (fun _ _ => rfl) (memoryStored_self s _)

/-- Each instruction that answers a next state has one of the effects. -/
theorem exec_effect {i : Instr} {s t : State} (h : exec i s = .next t) : Effect s i t := by
  cases i with
  | cls => cases h; exact .clear
  | ret =>
    rcases exec_ret_next h with ⟨-, rfl⟩ | ⟨h0, h1, rfl⟩
    · exact .of_fault rfl _
    · exact .ret h0 h1
  | jp nnn => cases h; exact .jump _ (.inl ⟨nnn, rfl⟩) (by rw [toNat_target]; omega)
  | call nnn =>
    rcases exec_call_next h with ⟨-, rfl⟩ | ⟨hs, rfl⟩
    · exact .of_fault rfl _
    · exact .call nnn hs
  | seImm | sneImm | seReg | sneReg => cases h; exact .skip _ rfl
  | ldImm | addImm | ldReg | orReg | andReg | xorReg | ldVxDt => cases h; exact .of_setV (by simp [destRegs]) _
  | addReg | subReg | shr | subnReg | shl =>
    cases h
    exact .of_setFlagThenV (by simp [destRegs]) (by simp [destRegs]) _ _
  | ldI nnn => cases h; exact .index _ (.inl ⟨nnn, rfl⟩)
  | addI x => cases h; exact .index _ (.inr (.inl ⟨x, rfl⟩))
  | ldF x => cases h; exact .index _ (.inr (.inr ⟨x, rfl⟩))
  | jpV0 nnn => cases h; exact .jump _ (.inr ⟨nnn, rfl⟩) (by rw [toNat_indexedTarget]; omega)
  | rnd x kk => cases h; exact .draw x kk _
  | drw x y n =>
    rcases exec_drw_next h with ⟨info, rfl⟩ | ⟨rows, rfl⟩
    · exact .of_fault rfl info
    · exact .blit x y n _ _ rows
  | skp x =>
    rcases exec_skp_next h with ⟨info, rfl⟩ | ⟨p, rfl⟩
    · exact .of_fault rfl info
    · exact .skip p rfl
  | sknp x =>
    rcases exec_sknp_next h with ⟨info, rfl⟩ | ⟨p, rfl⟩
    · exact .of_fault rfl info
    · exact .skip p rfl
  | ldVxK x => cases h; exact .wait x
  | ldDtVx x => cases h; exact .delay x
  | ldStVx x => cases h; exact .sound x
  | ldB x =>
    obtain ⟨m, hm, rfl | ⟨info, rfl⟩⟩ := exec_ldB_next h
    · exact .stored m hm
    · exact .faulted s.v m info rfl (fun _ _ => rfl) hm
  | storeRegs x =>
    obtain ⟨m, hm, rfl | ⟨info, rfl⟩⟩ := exec_storeRegs_next h
    · exact .stored m hm
    · exact .faulted s.v m info rfl (fun _ _ => rfl) hm
  | loadRegs x =>
    obtain ⟨u, ⟨hu, hkeep⟩, ht⟩ := exec_loadRegs_next h
    rw [hu] at ht hkeep
    obtain rfl | ⟨info, rfl⟩ := ht
    · exact .registers _ hkeep
    · exact .faulted u.v s.mem info rfl hkeep (memoryStored_self s _)

/-- CALL and RET need a legal SP; every other instruction answers a next state from every state. -/
theorem exec_completes {i : Instr} {s : State} (h : canFault i = false ∨ s.sp.toNat ≤ 16) :
    ∃ t, exec i s = .next t := by
  cases i with
  | ret =>
    have hsp : s.sp.toNat ≤ 16 := h.resolve_left (by simp [canFault])
    by_cases h0 : s.sp.toNat = 0
    · exact ⟨_, exec_ret_of_zero h0⟩
    · exact ⟨_, exec_ret_of_le h0 (by omega)⟩
  | call nnn =>
    have hsp : s.sp.toNat ≤ 16 := h.resolve_left (by simp [canFault])
    rcases Nat.lt_or_eq_of_le hsp with h1 | h1
    · exact ⟨_, exec_call_of_lt nnn h1⟩
    · exact ⟨_, exec_call_of_eq nnn h1⟩
  | skp x =>
    rcases Nat.lt_or_ge (s.getV x).toNat 16 with h1 | h1
    · exact ⟨_, exec_skp_of_lt h1⟩
    · exact ⟨_, exec_skp_of_ge h1⟩
  | sknp x =>
    rcases Nat.lt_or_ge (s.getV x).toNat 16 with h1 | h1
    · exact ⟨_, exec_sknp_of_lt h1⟩
    · exact ⟨_, exec_sknp_of_ge h1⟩
  | drw x y n =>
    by_cases h1 : n.toNat = 0 ∨ s.iReg.toNat + n.toNat ≤ 4096
    · exact ⟨_, exec_drw_inside h1⟩
    · exact ⟨_, exec_drw_outside (by omega) (by omega)⟩
  | ldB x =>
    rcases Nat.lt_or_ge 4096 (s.iReg.toNat + (bcdBytes (s.getV x)).length) with h1 | h1
    · exact ⟨_, by rw [exec_ldB_eq, storeBytes_raise _ s (by simp [bcdBytes]) h1, finish_raise]⟩
    · exact ⟨_, by rw [exec_ldB_eq, storeBytes_ok _ s h1, finish_ok]⟩
  | storeRegs x =>
    obtain ⟨m, hm | ⟨info, hm⟩, -⟩ := forEach_storeReg_any (regsUpTo x) s
    · exact ⟨_, congrArg (finish _ s) hm⟩
    · exact ⟨_, congrArg (finish _ s) hm⟩
  | loadRegs x =>
    rcases Nat.lt_or_ge (s.iReg.toNat + x.toNat) 4096 with h1 | h1
    · exact (exec_loadRegs_inside x h1).imp fun _ h => h.1
    · obtain ⟨u, hu, -⟩ := exec_loadRegs_outside x h1
      exact ⟨_, hu⟩
  | _ => exact ⟨_, rfl⟩

/-! ## What the effects leave unchanged -/

namespace Effect

variable {s t : State} {i : Instr}

theorem getV_eq (h : Effect s i t) {r : Nibble} (hr : r ∉ destRegs i) : t.getV r = s.getV r := by
  cases h with
  | registers v hkeep => exact hkeep r hr
  | draw x kk b => exact State.getV_setV_other _ b fun e => hr (e ▸ List.mem_singleton_self x)
  | skip c hi => exact State.getV_congr (s.skipIf_v c) r
  | blit x y n x0 y0 rows => exact getV_blitRows_other s x0 y0 rows fun e => hr (e ▸ List.mem_singleton_self vf)
  | faulted v m info hi hkeep hm => exact hkeep r hr
  | _ => rfl

/-- What stands in memory afterwards: at most the addresses of the instruction are written. -/
theorem memoryStored (h : Effect s i t) : MemoryStored s (storedAddrs s i) t.mem := by
  cases h with
  | stored m hm => exact hm
  | skip c hi => rw [State.skipIf_mem]; exact memoryStored_self s _
  | faulted v m info hi hkeep hm => exact hm
  | _ => exact memoryStored_self s _

theorem pc_eq (h : Effect s i t) (hi : isTransfer i = false) : t.pc = s.pc := by
  cases h with
  | jump t ht _ =>
    obtain ⟨nnn, rfl⟩ | ⟨nnn, rfl⟩ := ht <;> cases hi
  | skip c ht => cases ht.symm.trans hi
  | call nnn h => cases hi
  | ret h0 h => cases hi
  | _ => rfl

/-- The pc of an instruction that is no jump: it goes on, or skips. -/
theorem pc_of_not_jump (h : Effect s i t) (hjp : ∀ nnn, i ≠ .jp nnn) (hjpV0 : ∀ nnn, i ≠ .jpV0 nnn)
    (hcall : ∀ nnn, i ≠ .call nnn) (hret : i ≠ .ret) : t.pc = s.pc ∨ t.pc = s.pc + 2#16 := by
  cases h with
  | jump t ht _ =>
    obtain ⟨nnn, rfl⟩ | ⟨nnn, rfl⟩ := ht
    · exact absurd rfl (hjp nnn)
    · exact absurd rfl (hjpV0 nnn)
  | skip c _ => cases c <;> simp
  | call nnn h => exact absurd rfl (hcall nnn)
  | ret h0 h => exact absurd rfl hret
  | _ => exact .inl rfl

theorem iReg_eq (h : Effect s i t) :
    t.iReg = s.iReg ∨ (∃ nnn, i = .ldI nnn) ∨ (∃ x, i = .addI x) ∨ ∃ x, i = .ldF x := by
  cases h with
  | index a hi => exact .inr hi
  | skip c hi => exact .inl (s.skipIf_iReg c)
  | _ => exact .inl rfl

theorem stack_eq (h : Effect s i t) :
    (t.sp = s.sp ∧ t.stack = s.stack) ∨ (i = .ret ∧ t.stack = s.stack) ∨ ∃ nnn, i = .call nnn := by
  cases h with
  | call nnn h => exact .inr (.inr ⟨nnn, rfl⟩)
  | ret h0 h => exact .inr (.inl ⟨rfl, rfl⟩)
  | skip c hi => exact .inl ⟨s.skipIf_sp c, s.skipIf_stack c⟩
  | _ => exact .inl ⟨rfl, rfl⟩

theorem dt_eq (h : Effect s i t) : t.dt = s.dt ∨ ∃ x, i = .ldDtVx x := by
  cases h with
  | delay x => exact .inr ⟨x, rfl⟩
  | skip c hi => exact .inl (s.skipIf_dt c)
  | _ => exact .inl rfl

theorem st_eq (h : Effect s i t) : t.st = s.st ∨ ∃ x, i = .ldStVx x := by
  cases h with
  | sound x => exact .inr ⟨x, rfl⟩
  | skip c hi => exact .inl (s.skipIf_st c)
  | _ => exact .inl rfl

theorem fb_eq (h : Effect s i t) : t.fb = s.fb ∨ i = .cls ∨ ∃ x y n, i = .drw x y n := by
  cases h with
  | clear => exact .inr (.inl rfl)
  | blit x y n _ _ _ => exact .inr (.inr ⟨x, y, n, rfl⟩)
  | skip c hi => exact .inl (s.skipIf_fb c)
  | _ => exact .inl rfl

theorem key_eq (h : Effect s i t) : t.key = s.key := by
  cases h with
  | skip c hi => exact s.skipIf_key c
  | _ => rfl

theorem host_eq (h : Effect s i t) :
    t.keyMap = s.keyMap ∧ t.diags = s.diags ∧ t.mapped = s.mapped ∧ t.started = s.started ∧
      t.schedule = s.schedule := by
  cases h with
  | skip c hi => simp
  | _ => exact ⟨rfl, rfl, rfl, rfl, rfl⟩

theorem started_eq (h : Effect s i t) : t.started = s.started := by
  obtain ⟨-, -, -, hstarted, -⟩ := h.host_eq
  exact hstarted

theorem draws_eq (h : Effect s i t) : t.draws = s.draws ∨ ∃ x kk, i = .rnd x kk := by
  cases h with
  | draw x kk b => exact .inr ⟨x, kk, rfl⟩
  | skip c hi => exact .inl (s.skipIf_draws c)
  | _ => exact .inl rfl

/-- RUN, FAULT and WAIT_X: left alone, or a wait begins, or a fault is taken. -/
theorem run_fault_waitX (h : Effect s i t) :
    (t.run = s.run ∧ t.fault = s.fault ∧ t.waitX = s.waitX) ∨
    (∃ x, i = .ldVxK x ∧ t = { s with waitX := x, run := .waitKey }) ∨
    (canFault i = true ∧ t.run = .faulted ∧ t.waitX = s.waitX ∧ ∃ info, t.fault =
      some { kind := faultKindOf i, word := some (encode i), addr := s.pc - 2#16, info := info }) := by
  cases h with
  | wait x => exact .inr (.inl ⟨x, rfl, rfl⟩)
  | faulted v m info hi hkeep hm => exact .inr (.inr ⟨hi, rfl, rfl, info, rfl⟩)
  | skip c hi => exact .inl ⟨s.skipIf_run c, s.skipIf_fault c, s.skipIf_waitX c⟩
  | _ => exact .inl ⟨rfl, rfl, rfl⟩

end Effect

end Sys2Proof.Machine

namespace Sys2Proof

open Sys2Proof.Machine Sys2Proof.Claims

/-- Settles O50: RUN and FAULT change by the two effects that write them; no instruction outside the eight has the
fault. -/
theorem onlyTheseInstructionsFault : Obligations.OnlyTheseInstructionsFault := by
  unfold Obligations.OnlyTheseInstructionsFault
  constructor
  · intro i s hi
    obtain ⟨t, ht⟩ := exec_completes (s := s) (.inl hi)
    refine ⟨t, ht, ?_⟩
    by_cases hw : ∃ x, i = .ldVxK x
    · obtain ⟨x, rfl⟩ := hw
      cases ht
      exact ⟨rfl, .inl ⟨⟨x, rfl⟩, rfl⟩⟩
    · rcases (exec_effect ht).run_fault_waitX with ⟨hr, hf, hx⟩ | ⟨x, rfl, -⟩ | ⟨hc, -⟩
      · exact ⟨hf, .inr ⟨hw, hr, hx⟩⟩
      · exact absurd ⟨x, rfl⟩ hw
      · exact absurd (hi.symm.trans hc) (by decide)
  · intro i s t hi ht
    rcases (exec_effect ht).run_fault_waitX with ⟨hr, hf, hx⟩ | ⟨x, rfl, -⟩ | ⟨-, hr, hx, hf⟩
    · exact ⟨hx, .inl ⟨hr, hf⟩⟩
    · cases hi
    · exact ⟨hx, .inr ⟨hr, hf⟩⟩

/-- Settles O52: the effects that write registers name those of the access table. -/
theorem registersOutsideTheDestinationsKeepTheirValue : Obligations.RegistersOutsideTheDestinationsKeepTheirValue := by
  unfold Obligations.RegistersOutsideTheDestinationsKeepTheirValue
  exact fun _ _ _ _ h => (exec_effect h).getV_eq

/-- Settles O53: the effects that store write the addresses computed for the instruction. -/
theorem memoryOutsideTheStoredBytesIsUnchanged : Obligations.MemoryOutsideTheStoredBytesIsUnchanged := by
  unfold Obligations.MemoryOutsideTheStoredBytesIsUnchanged
  intro i s t a h
  obtain ⟨-, hkeep⟩ := (exec_effect h).memoryStored
  exact hkeep a

/-- Settles O54: the pc is written by the effects of the transfers alone. -/
theorem onlyTransfersChangeThePc : Obligations.OnlyTransfersChangeThePc := by
  unfold Obligations.OnlyTransfersChangeThePc
  refine ⟨fun _ _ _ hi h => (exec_effect h).pc_eq hi, fun s t x y ign kk h => ?_⟩
  rcases h with h | h | h | h | h | h <;>
    exact (exec_effect h).pc_of_not_jump nofun nofun nofun nofun

/-- Settles O55: one effect writes I, and those of CALL and RET the stack. -/
theorem iAndTheStackHaveFewWriters : Obligations.IAndTheStackHaveFewWriters := by
  unfold Obligations.IAndTheStackHaveFewWriters
  exact fun _ _ _ h => ⟨(exec_effect h).iReg_eq, (exec_effect h).stack_eq⟩

/-- Settles O56: one effect writes each timer, two the display, and none the key flags. -/
theorem timersDisplayAndKeysHaveFewWriters : Obligations.TimersDisplayAndKeysHaveFewWriters := by
  unfold Obligations.TimersDisplayAndKeysHaveFewWriters
  intro i s t h
  have he := exec_effect h
  exact ⟨he.dt_eq, he.st_eq, he.fb_eq, he.key_eq⟩

/-- Settles O57: no effect writes the host's fields, and one counts a draw. -/
theorem instructionsLeaveTheHostSideAlone : Obligations.InstructionsLeaveTheHostSideAlone := by
  unfold Obligations.InstructionsLeaveTheHostSideAlone
  intro i s t h
  obtain ⟨hmap, hdiags, hmapped, hstarted, hsch⟩ := (exec_effect h).host_eq
  exact ⟨hmap, hdiags, hmapped, hstarted, hsch, (exec_effect h).draws_eq⟩

end Sys2Proof
end

section
/-! Everything a step can do, said once: what each host event leaves, and from it the invariant of every reachable
state, the start-up and the held core, with the obligations O39, O46, O47, O48, O49 and O51. -/

namespace Sys2Proof.Machine

open Sys2Proof.Claims

/-! ## A step is one host event -/

/-- The event a step takes: the first of the schedule, or a Step (log 3). -/
def State.event (s : State) : HostEvent := s.schedule.headD .step

/-- The state in which a step takes its event. -/
def State.awaiting (s : State) : State := { s with schedule := s.schedule.tail }

theorem step_eq_hostEvent (s : State) : step s = hostEvent s.event s.awaiting := by
  cases h : s.schedule with
  | nil =>
    have hawait : s.awaiting = s := by
      rw [State.awaiting, h, List.tail_nil, ← h]
    rw [step_of_no_event h, State.event, h, hawait]
    rfl
  | cons e rest =>
    rw [step_of_event h, State.event, State.awaiting, h]
    rfl

/-! ## The effects of the events -/

/-- The events of a key, by its code or by the host's identifier (60_exceptions.md R197, R198). -/
def isKeyEvent : HostEvent → Bool
  | .keyDown _ | .keyUp _ | .hostKeyDown _ | .hostKeyUp _ => true
  | _ => false

/-- What a host event can leave of state s. Every field an effect does not name is that of s. -/
inductive EventEffect (s : State) : HostEvent → State → Prop
  /-- A Step in WAIT_KEY or FAULTED (70_reset_and_hazards.md R232). -/
  | held (hr : s.run ≠ .running) : EventEffect s .step s
  /-- A Step whose fetch leaves the memory (60_exceptions.md R188). -/
  | fetchFault (hr : s.run = .running) : EventEffect s .step (fetchFaulted s)
  /-- A Step on an unsupported word (30_encoding.md R71). -/
  | unsupported (hr : s.run = .running) (hpc : s.pc.toNat + 1 < 4096) : EventEffect s .step (reported s)
  /-- A Step that executes an instruction, the pc past it and the start-up over. -/
  | executed {t : State} (i : Instr) (hr : s.run = .running) (hpc : s.pc.toNat + 1 < 4096)
      (h : Effect s.start.advance i t) : EventEffect s .step t
  | tick : EventEffect s .tick s.tick.start
  /-- A key event that ends no wait: the key flags at most, and the start-up is over (60_exceptions.md R197). -/
  | keys {e : HostEvent} (key : Vector Bool 16) (he : isKeyEvent e = true) :
      EventEffect s e { s with key := key, started := true }
  /-- The key-down that ends a wait (60_exceptions.md R199). -/
  | endWait {e : HostEvent} (key : Vector Bool 16) (b : Byte) (hr : s.run = .waitKey) (he : isKeyEvent e = true) :
      EventEffect s e (({ s with key := key, run := .running, started := true } : State).setV s.waitX b)
  /-- A host key that no slot holds (60_exceptions.md R198). -/
  | ignored {e : HostEvent} (he : isKeyEvent e = true) : EventEffect s e s
  | reset : EventEffect s .reset s.applyReset
  | load (image : List Byte) (hs : s.started = false) (hlen : 0x200 + image.length ≤ 4096) :
      EventEffect s (.load image) { s with mem := s.mem.writeImage 0x200 image }
  | mapping (table : KeyMap) (hs : s.started = false) :
      EventEffect s (.setMapping table) { s with keyMap := some table, mapped := true }
  | pulse : EventEffect s .soundPulse { s with st := 0x00#8 }

theorem EventEffect.of_coreStep {s t : State} (h : coreStep s = .next t) : EventEffect s .step t := by
  by_cases hr : s.run = .running
  · rcases Nat.lt_or_ge (s.pc.toNat + 1) 4096 with hpc | hpc
    · cases hw : decodeWord s.wordAtPc with
      | ok i =>
        rw [coreStep_of_decoded hr hpc hw] at h
        exact .executed i hr hpc (exec_effect h)
      | error r =>
        rw [coreStep_of_unsupported hr hpc hw] at h
        cases h
        exact .unsupported hr hpc
    · rw [coreStep_of_fetch_fault hr (Nat.le_of_succ_le_succ hpc)] at h
      cases h
      exact .fetchFault hr
  · rw [coreStep_of_not_running hr] at h
    cases h
    exact .held hr

theorem EventEffect.of_keyDown (s : State) (k : Nat) {e : HostEvent} (he : isKeyEvent e = true) :
    EventEffect s e (s.deliverKeyDown k) := by
  rcases Nat.lt_or_ge k 16 with h | h
  · by_cases hr : s.run = .waitKey
    · rw [State.deliverKeyDown, State.keyDown_start_of_waiting hr h]
      exact .endWait _ _ hr he
    · rw [State.deliverKeyDown, State.keyDown_of_not_waiting hr h]
      exact .keys _ he
  · rw [State.deliverKeyDown, State.keyDown_of_ge s h]
    exact .keys s.key he

theorem EventEffect.of_keyUp (s : State) (k : Nat) {e : HostEvent} (he : isKeyEvent e = true) :
    EventEffect s e (s.deliverKeyUp k) := by
  rw [State.deliverKeyUp, State.keyUp_frame]
  exact .keys _ he

/-- Each event that answers a next state has one of the effects. -/
theorem hostEvent_effect {e : HostEvent} {s t : State} (h : hostEvent e s = .next t) : EventEffect s e t := by
  cases e with
  | step => exact .of_coreStep h
  | tick => cases h; exact .tick
  | keyDown k => cases h; exact .of_keyDown s k rfl
  | keyUp k => cases h; exact .of_keyUp s k rfl
  | reset => cases h; exact .reset
  | load image =>
    obtain ⟨hs, hlen, rfl⟩ := loadImage_next h
    exact .load image hs hlen
  | setMapping table =>
    obtain ⟨hs, -, rfl⟩ := installMapping_next h
    exact .mapping table hs
  | hostKeyDown key =>
    cases h
    rcases deliverKey_cases State.deliverKeyDown key s with ⟨k, -, hk⟩ | ⟨-, hk⟩ <;> rw [hk]
    · exact .of_keyDown s k rfl
    · exact .ignored rfl
  | hostKeyUp key =>
    cases h
    rcases deliverKey_cases State.deliverKeyUp key s with ⟨k, -, hk⟩ | ⟨-, hk⟩ <;> rw [hk]
    · exact .of_keyUp s k rfl
    · exact .ignored rfl
  | soundPulse =>
    have h : soundPulse Config.soundTimerMode s = .next t := h
    cases hm : Config.soundTimerMode <;> rw [hm] at h <;> cases h
    exact .pulse

theorem step_effect {s t : State} (h : step s = .next t) : EventEffect s.awaiting s.event t :=
  hostEvent_effect ((step_eq_hostEvent s).symm.trans h)

/-! ## The start-up and the canonical memory -/

theorem EventEffect.started {e : HostEvent} {s t : State} (h : EventEffect s e t) (he : e ≠ .reset)
    (hs : s.started = true) : t.started = true := by
  cases h with
  | executed i hr hpc h => exact h.started_eq
  | reset => exact absurd rfl he
  | held | ignored | load | mapping | pulse => exact hs
  | _ => rfl

theorem EventEffect.started_of_running {s t : State} (h : EventEffect s .step t) (hr : s.run = .running) :
    t.started = true := by
  cases h with
  | held hheld => exact absurd hr hheld
  | executed i _ hpc h => exact h.started_eq
  | ignored he => cases he
  | _ => rfl

theorem EventEffect.wf {e : HostEvent} {s t : State} (h : EventEffect s e t) (hs : s.mem.wf = true) :
    t.mem.wf = true := by
  cases h with
  | executed i hr hpc h =>
    obtain ⟨hwf, -⟩ := h.memoryStored
    exact hwf hs
  | reset => exact Memory.wf_nil
  | load image _ hlen => exact Memory.wf_writeImage image hs hlen
  | _ => exact hs

/-! ## The stack pointer and the addresses (10_state.md R16, R17) -/

theorem Effect.sp_le {i : Instr} {s t : State} (h : Effect s i t) (hs : s.sp.toNat ≤ 16) : t.sp.toNat ≤ 16 := by
  cases h with
  | call nnn hlt =>
    show (s.sp + 1#8).toNat ≤ 16
    rw [toNat_sp_succ hlt]
    exact hlt
  | ret h0 hle =>
    show (s.sp - 1#8).toNat ≤ 16
    have hone : (1#8).toNat ≤ s.sp.toNat := Nat.one_le_iff_ne_zero.mpr h0
    rw [BitVec.toNat_sub_of_le hone]
    omega
  | skip c hi => rwa [State.skipIf_sp]
  | _ => exact hs

/-- The pc after the fetch is at most 0x1000, so what a CALL pushes is, and a skip passes it by 2 at most. -/
theorem Effect.addressesBounded {i : Instr} {s t : State} (h : Effect s i t) (hs : s.AddressesBounded)
    (hpc : s.pc.toNat ≤ 0x1000) : t.AddressesBounded := by
  obtain ⟨-, hstack⟩ := hs
  have hpc' : s.pc.toNat ≤ 0x10FE := by omega
  cases h with
  | jump t hi ht => exact ⟨ht, hstack⟩
  | skip c hi =>
    refine ⟨?_, by rwa [State.skipIf_stack]⟩
    cases c
    · exact hpc'
    · show (s.pc + 2#16).toNat ≤ 0x10FE
      simp only [BitVec.toNat_add, BitVec.toNat_ofNat]
      omega
  | call nnn hlt =>
    refine ⟨?_, fun a ha => ?_⟩
    · show (target nnn).toNat ≤ 0x10FE
      rw [toNat_target]
      omega
    · rw [Vector.toList_set] at ha
      rcases List.mem_or_eq_of_mem_set ha with ha | rfl
      · exact hstack a ha
      · exact hpc
  | ret h0 hle =>
    refine ⟨?_, hstack⟩
    have hslot := hstack s.stack[s.sp.toNat - 1] (by simp)
    show (s.stack[s.sp.toNat - 1]).toNat ≤ 0x10FE
    omega
  | _ => exact ⟨hpc', hstack⟩

/-! ## The record of a fault, and the held core (60_exceptions.md R181, R193) -/

theorem isCoreFault_faultKindOf (i : Instr) : (faultKindOf i).isCoreFault = true := by
  cases i <;> rfl

theorem State.FaultRecorded.fault_eq_none {s : State} (h : s.FaultRecorded) (hr : s.run ≠ .faulted) :
    s.fault = none := by
  by_contra hf
  exact hr (h.1.mpr hf)

/-- Nothing recorded, and not FAULTED. -/
theorem State.faultRecorded_of_none {s : State} (hr : s.run ≠ .faulted) (hf : s.fault = none) : s.FaultRecorded :=
  ⟨⟨fun e => absurd e hr, fun e => absurd hf e⟩, fun f e => by rw [hf] at e; cases e⟩

/-- A fault of the core recorded, and FAULTED. -/
theorem State.faultRecorded_of_some {s : State} {f : FaultRecord} (hr : s.run = .faulted) (hf : s.fault = some f)
    (hk : f.kind.isCoreFault = true) : s.FaultRecorded := by
  refine ⟨⟨fun _ => by rw [hf]; exact nofun, fun _ => hr⟩, fun g e => ?_⟩
  obtain rfl : f = g := Option.some.inj (hf.symm.trans e)
  exact hk

theorem Effect.faultRecorded {i : Instr} {s t : State} (h : Effect s i t) (hs : s.FaultRecorded)
    (hr : s.run = .running) : t.FaultRecorded := by
  have hnone : s.fault = none := hs.fault_eq_none (by rw [hr]; decide)
  rcases h.run_fault_waitX with ⟨hrun, hfault, -⟩ | ⟨x, -, rfl⟩ | ⟨-, hrun, -, info, hfault⟩
  · exact State.faultRecorded_of_none (by rw [hrun, hr]; decide) (hfault.trans hnone)
  · exact State.faultRecorded_of_none nofun hnone
  · exact State.faultRecorded_of_some hrun hfault (isCoreFault_faultKindOf i)

/-! ## The invariant -/

theorem State.inv_reset : State.reset.Inv := by
  refine ⟨by decide, ⟨by decide, fun a ha => ?_⟩, Memory.wf_nil, State.faultRecorded_of_none nofun rfl,
    fun h => absurd rfl h⟩
  obtain rfl : a = 0x0000#16 := by simpa [State.reset] using ha
  decide

/-- The advance of a pc whose word is in the memory. -/
theorem toNat_pc_advance {pc : Word} (h : pc.toNat + 1 < 4096) : (pc + 2#16).toNat ≤ 0x1000 := by
  simp only [BitVec.toNat_add, BitVec.toNat_ofNat]
  omega

theorem EventEffect.inv {e : HostEvent} {s t : State} (h : EventEffect s e t) (hs : s.Inv) : t.Inv := by
  obtain ⟨hsp, ⟨hpc, hstack⟩, hwfs, hfault, hheld⟩ := hs
  have hwf := h.wf hwfs
  cases h with
  | held | ignored | load | mapping | pulse => exact ⟨hsp, ⟨hpc, hstack⟩, hwf, hfault, hheld⟩
  | tick | keys => exact ⟨hsp, ⟨hpc, hstack⟩, hwf, hfault, fun _ => rfl⟩
  | fetchFault hr =>
    exact ⟨hsp, ⟨hpc, hstack⟩, hwf, State.faultRecorded_of_some rfl rfl rfl, fun _ => rfl⟩
  | unsupported hr hin =>
    exact ⟨hsp, ⟨(toNat_pc_advance hin).trans (by decide), hstack⟩, hwf, hfault, fun _ => rfl⟩
  | endWait key b hr =>
    exact ⟨hsp, ⟨hpc, hstack⟩, hwf,
      State.faultRecorded_of_none nofun (hfault.fault_eq_none (by rw [hr]; decide)), fun _ => rfl⟩
  | executed i hr hin h =>
    have hadv := toNat_pc_advance hin
    exact ⟨h.sp_le hsp, h.addressesBounded ⟨hadv.trans (by decide), hstack⟩ hadv, hwf, h.faultRecorded hfault hr,
      fun _ => h.started_eq⟩
  | reset => exact State.inv_reset

/-! ## A FAULTED core (60_exceptions.md R189, R193) -/

theorem event_ne_reset {s : State} (h : ∀ rest, s.schedule ≠ .reset :: rest) : s.event ≠ .reset := by
  intro e
  cases hsch : s.schedule with
  | nil => simp [State.event, hsch] at e
  | cons head rest =>
    obtain rfl : head = .reset := by simpa [State.event, hsch] using e
    exact h rest hsch

theorem EventEffect.faulted_keeps {e : HostEvent} {s t : State} (h : EventEffect s e t) (he : e ≠ .reset)
    (hr : s.run = .faulted) :
    t.run = .faulted ∧ t.fault = s.fault ∧ t.pc = s.pc ∧ t.v = s.v ∧ t.iReg = s.iReg ∧ t.sp = s.sp ∧
      t.stack = s.stack ∧ t.fb = s.fb ∧ t.waitX = s.waitX := by
  cases h with
  | reset => exact absurd rfl he
  | fetchFault | unsupported | executed | endWait => simp_all
  | _ => exact ⟨hr, rfl, rfl, rfl, rfl, rfl, rfl, rfl, rfl⟩

/-- Past the start-up the host writes neither memory nor the key map. -/
theorem EventEffect.faulted_frame {e : HostEvent} {s t : State} (h : EventEffect s e t) (he : e ≠ .reset)
    (hr : s.run = .faulted) (hs : s.started = true) :
    t = { s with dt := t.dt, st := t.st, key := t.key, schedule := t.schedule } := by
  cases h with
  | reset => exact absurd rfl he
  | fetchFault | unsupported | executed | endWait => simp_all
  | load | mapping => simp_all
  | tick => simp [State.start, State.tick, hs]
  | keys => simp [hs]
  | held | ignored | pulse => rfl

/-! ## No stop from a legal state -/

theorem coreStep_completes {s : State} (hsp : s.sp.toNat ≤ 16) : ∃ t, coreStep s = .next t := by
  by_cases hr : s.run = .running
  · rw [coreStep_of_running hr]
    rcases cycle_cases { s with started := true } with ⟨-, h⟩ | ⟨-, i, -, h⟩ | ⟨-, r, -, h⟩ <;> rw [h]
    · exact ⟨_, rfl⟩
    · exact exec_completes (.inr hsp)
    · exact ⟨_, rfl⟩
  · exact ⟨s, coreStep_of_not_running hr⟩

theorem hostEvent_ne_fault_of_legal {e : HostEvent} {s : State} {f : Fault} (hsp : s.sp.toNat ≤ 16) :
    hostEvent e s ≠ .fault f := by
  by_cases he : e = .step
  · subst he
    obtain ⟨t, ht⟩ := coreStep_completes hsp
    intro h
    cases ht.symm.trans h
  · exact hostEvent_ne_fault he

theorem exec_ne_refused (i : Instr) (s : State) (q : Refusal) : exec i s ≠ .refused q := by
  cases i with
  | ret | call | drw | skp | sknp | ldB | storeRegs | loadRegs => exact finish_ne_refused
  | _ => exact nofun

end Sys2Proof.Machine

namespace Sys2Proof

open Sys2Proof.Machine

/-- Settles O39: the events that end the start-up write its mark, and no effect but that of Reset clears it. -/
theorem stepTickAndKeysEndTheStartUp : Obligations.StepTickAndKeysEndTheStartUp := by
  unfold Obligations.StepTickAndKeysEndTheStartUp
  refine ⟨fun s t k h => ?_, fun s t e hs he h => (hostEvent_effect h).started he hs, fun s t h => ?_⟩
  · rcases h with h | h | h | ⟨hr, h⟩
    · cases h; rfl
    · cases h; rfl
    · cases h; rfl
    · exact (hostEvent_effect h).started_of_running hr
  · cases h
    exact ⟨rfl, rfl⟩

/-- Settles O46: nothing is pushed, listed or recorded yet, and the core runs. -/
theorem invariantHoldsAtReset : Obligations.InvariantHoldsAtReset := State.inv_reset

/-- Settles O47: the effect of every event keeps the five parts; the schedule is none of them. -/
theorem everyStepKeepsTheInvariant : Obligations.EveryStepKeepsTheInvariant := by
  unfold Obligations.EveryStepKeepsTheInvariant
  intro s s' hs h
  exact (step_effect h).inv hs

/-- Settles O48: the effects that write memory keep its form. -/
theorem everyStepKeepsMemoryCanonical : Obligations.EveryStepKeepsMemoryCanonical := by
  unfold Obligations.EveryStepKeepsMemoryCanonical
  intro s s' hs h
  exact (step_effect h).wf hs

/-- Settles O49: CALL and RET have a slot or a fault of the core for every legal SP, and no instruction is refused. -/
theorem legalStatesNeverStop : Obligations.LegalStatesNeverStop := by
  unfold Obligations.LegalStatesNeverStop
  refine ⟨fun s f hsp h => ?_, exec_ne_refused⟩
  rw [step_eq_hostEvent] at h
  exact hostEvent_ne_fault_of_legal (s := s.awaiting) hsp h

/-- Settles O51: the effects that a FAULTED core admits write none of these fields; the schedule is all a step takes
besides. -/
theorem onlyResetLeavesFaulted : Obligations.OnlyResetLeavesFaulted := by
  unfold Obligations.OnlyResetLeavesFaulted
  intro s t hr hreset h
  exact ⟨(step_effect h).faulted_keeps (event_ne_reset hreset) hr,
    (step_effect h).faulted_frame (event_ne_reset hreset) hr⟩

end Sys2Proof
end

section
/-! ST is read by nothing but the sound line (60_exceptions.md R196): every operation answers alike whatever ST is, and
the obligation O58. -/

namespace Sys2Proof.Machine

open Sys2Proof.Decode Sys2Proof.Claims

/-- s with another value in ST. -/
def State.withSt (s : State) (n : Byte) : State := { s with st := n }

/-- An answer in which ST holds another value. -/
def Result.withSt {α : Type} (r : Result α) (n : Byte) : Result α :=
  match r with
  | .ok a s => .ok a (s.withSt n)
  | .raise kind info s => .raise kind info (s.withSt n)
  | .stuck f => .stuck f

/-- A part of an instruction that neither reads nor writes ST. -/
def StFree {α : Type} (f : State → Result α) : Prop := ∀ s n, f (s.withSt n) = (f s).withSt n

/-! ## The parts of the instructions that fault -/

theorem StFree.bind {α β : Type} {f : State → Result α} {k : α → State → Result β} (hf : StFree f)
    (hk : ∀ a, StFree (k a)) : StFree fun s => (f s).bind k := by
  intro s n
  show (f (s.withSt n)).bind k = ((f s).bind k).withSt n
  rw [hf s n]
  cases f s with
  | ok a u => exact hk a u n
  | raise kind info u => rfl
  | stuck e => rfl

theorem StFree.forEach {f : Nat → State → Result Unit} (hf : ∀ k, StFree (f k)) :
    ∀ ks : List Nat, StFree (Machine.forEach f ks)
  | [] => fun _ _ => rfl
  | k :: ks => StFree.bind (hf k) fun _ => StFree.forEach hf ks

theorem stFree_readByte (a : Nat) : StFree (readByte a) := by
  intro s n
  unfold readByte
  split <;> rfl

theorem stFree_writeByte (a : Nat) (b : Byte) : StFree (writeByte a b) := by
  intro s n
  unfold writeByte
  split <;> rfl

theorem stFree_readBytes (base : Nat) : ∀ ks : List Nat, StFree (readBytes base ks)
  | [] => fun _ _ => rfl
  | k :: ks => StFree.bind (stFree_readByte (base + k)) fun _ => StFree.bind (stFree_readBytes base ks) fun _ _ _ => rfl

theorem stFree_storeBytes : ∀ (a : Nat) (bs : List Byte), StFree (storeBytes a bs)
  | _, [] => fun _ _ => rfl
  | a, b :: bs => StFree.bind (stFree_writeByte a b) fun _ => stFree_storeBytes (a + 1) bs

theorem stFree_storeReg (k : Nat) : StFree (storeReg k) := fun s => stFree_writeByte (s.ea k) (s.getV (regOf k)) s

theorem stFree_loadReg (k : Nat) : StFree (loadReg k) := fun s =>
  StFree.bind (stFree_readByte (s.ea k)) (fun _ _ _ => rfl) s

theorem stFree_isPressed (k : Byte) : StFree (isPressed k) := by
  intro s n
  unfold isPressed
  split <;> rfl

theorem stFree_push (t : Word) : StFree (push t) := by
  intro s n
  rcases Nat.lt_trichotomy s.sp.toNat 16 with h | h | h
  · rw [push_of_lt t h, push_of_lt (s := s.withSt n) t h]
    rfl
  · rw [push_of_eq t h, push_of_eq (s := s.withSt n) t h]
    rfl
  · rw [push_of_gt t h, push_of_gt (s := s.withSt n) t h]
    rfl

theorem stFree_pop : StFree pop := by
  intro s n
  by_cases h0 : s.sp.toNat = 0
  · rw [pop_of_zero h0, pop_of_zero (s := s.withSt n) h0]
    rfl
  · rcases Nat.lt_or_ge 16 s.sp.toNat with h | h
    · rw [pop_of_gt h, pop_of_gt (s := s.withSt n) h]
      rfl
    · have hle : s.sp.toNat - 1 < 16 := by omega
      rw [pop_of_le h0 hle, pop_of_le (s := s.withSt n) h0 hle]
      rfl

theorem State.skipIf_withSt (s : State) (n : Byte) (c : Bool) : (s.withSt n).skipIf c = (s.skipIf c).withSt n := by
  cases c <;> rfl

theorem stFree_skipIf (c : Bool) : StFree fun s => .ok () (s.skipIf c) := fun s n =>
  congrArg (Result.ok ()) (s.skipIf_withSt n c)

theorem StFree.finish {f : State → Result Unit} (hf : StFree f) {w : Word} {s t : State} (n : Byte)
    (h : Machine.finish w s (f s) = .next t) :
    Machine.finish w (s.withSt n) (f (s.withSt n)) = .next (t.withSt n) := by
  rw [hf s n]
  cases e : f s with
  | ok a u => rw [e] at h; cases h; rfl
  | raise kind info u => rw [e] at h; cases h; rfl
  | stuck e' => rw [e] at h; cases h

/-! ## Instructions -/

theorem exec_withSt {i : Instr} {s t : State} (n : Byte) (h : exec i s = .next t) :
    ∃ m, exec i (s.withSt n) = .next (t.withSt m) := by
  cases i with
  | ret => exact ⟨n, (StFree.bind stFree_pop fun _ _ _ => rfl).finish n h⟩
  | call nnn => exact ⟨n, (StFree.bind (stFree_push s.pc) fun _ _ _ => rfl).finish n h⟩
  | skp x =>
    exact ⟨n, (StFree.bind (stFree_isPressed (s.getV x)) fun p => stFree_skipIf p).finish n h⟩
  | sknp x =>
    exact ⟨n, (StFree.bind (stFree_isPressed (s.getV x)) fun p => stFree_skipIf !p).finish n h⟩
  | drw x y k =>
    exact ⟨n, (StFree.bind (stFree_readBytes (s.ea 0) (rowOffsets k)) fun rows _ _ => rfl).finish n h⟩
  | ldB x =>
    rw [exec_ldB_eq] at h ⊢
    exact ⟨n, (stFree_storeBytes s.iReg.toNat (bcdBytes (s.getV x))).finish n h⟩
  | storeRegs x => exact ⟨n, (StFree.forEach stFree_storeReg (regsUpTo x)).finish n h⟩
  | loadRegs x => exact ⟨n, (StFree.forEach stFree_loadReg (regsUpTo x)).finish n h⟩
  | seImm | sneImm | seReg | sneReg => cases h; exact ⟨n, congrArg Host.Outcome.next (s.skipIf_withSt n _)⟩
  | ldStVx x => cases h; exact ⟨s.getV x, rfl⟩
  | _ => cases h; exact ⟨n, rfl⟩

/-! ## Events -/

theorem coreStep_withSt {s t : State} (n : Byte) (h : coreStep s = .next t) :
    ∃ m, coreStep (s.withSt n) = .next (t.withSt m) := by
  by_cases hr : s.run = .running
  · rcases Nat.lt_or_ge (s.pc.toNat + 1) 4096 with hpc | hpc
    · cases hw : decodeWord s.wordAtPc with
      | ok i =>
        rw [coreStep_of_decoded hr hpc hw] at h
        rw [coreStep_of_decoded (s := s.withSt n) hr hpc hw]
        exact exec_withSt n h
      | error r =>
        rw [coreStep_of_unsupported hr hpc hw] at h
        cases h
        exact ⟨n, coreStep_of_unsupported (s := s.withSt n) hr hpc hw⟩
    · have hge : 0xFFF ≤ s.pc.toNat := Nat.le_of_succ_le_succ hpc
      rw [coreStep_of_fetch_fault hr hge] at h
      cases h
      exact ⟨n, coreStep_of_fetch_fault (s := s.withSt n) hr hge⟩
  · rw [coreStep_of_not_running hr] at h
    cases h
    exact ⟨n, coreStep_of_not_running (s := s.withSt n) hr⟩

theorem State.deliverKeyDown_withSt (s : State) (n : Byte) (k : Nat) :
    (s.withSt n).deliverKeyDown k = (s.deliverKeyDown k).withSt n := by
  unfold State.deliverKeyDown
  rcases Nat.lt_or_ge k 16 with h | h
  · by_cases hr : s.run = .waitKey
    · rw [State.keyDown_of_waiting hr h, State.keyDown_of_waiting (s := s.withSt n) hr h]
      rfl
    · rw [State.keyDown_of_not_waiting hr h, State.keyDown_of_not_waiting (s := s.withSt n) hr h]
      rfl
  · rw [State.keyDown_of_ge s h, State.keyDown_of_ge (s.withSt n) h]
    rfl

theorem State.deliverKeyUp_withSt (s : State) (n : Byte) (k : Nat) :
    (s.withSt n).deliverKeyUp k = (s.deliverKeyUp k).withSt n := by
  unfold State.deliverKeyUp State.keyUp
  rcases Nat.lt_or_ge k 16 with h | h
  · rw [State.setKey_of_lt s false h, State.setKey_of_lt (s.withSt n) false h]
    rfl
  · rw [State.setKey_of_ge s false h, State.setKey_of_ge (s.withSt n) false h]
    rfl

theorem deliverKey_withSt {deliver : State → Nat → State}
    (hd : ∀ s n k, deliver (s.withSt n) k = (deliver s k).withSt n) (key : HostKeyId) (s : State) (n : Byte) :
    deliverKey deliver key (s.withSt n) = (deliverKey deliver key s).withSt n := by
  have hsame : (s.withSt n).resolveKey key = s.resolveKey key := rfl
  unfold deliverKey
  rw [hsame]
  cases s.resolveKey key with
  | some k => exact hd s n k
  | none => rfl

theorem soundPulse_withSt {mode : SoundTimerMode} {s t : State} (n : Byte) (h : soundPulse mode s = .next t) :
    ∃ m, soundPulse mode (s.withSt n) = .next (t.withSt m) := by
  cases mode <;> cases h
  exact ⟨0x00#8, rfl⟩

theorem hostEvent_withSt {e : HostEvent} {s t : State} (n : Byte) (h : hostEvent e s = .next t) :
    ∃ m, hostEvent e (s.withSt n) = .next (t.withSt m) := by
  cases e with
  | step => exact coreStep_withSt n h
  | tick => cases h; exact ⟨countDown n, rfl⟩
  | keyDown k => cases h; exact ⟨n, congrArg Host.Outcome.next (s.deliverKeyDown_withSt n k)⟩
  | keyUp k => cases h; exact ⟨n, congrArg Host.Outcome.next (s.deliverKeyUp_withSt n k)⟩
  | reset => cases h; exact ⟨0x00#8, rfl⟩
  | load image =>
    obtain ⟨hs, hlen, rfl⟩ := loadImage_next h
    exact ⟨n, loadImage_of_fits (s := s.withSt n) hs hlen⟩
  | setMapping table =>
    obtain ⟨hs, hm, rfl⟩ := installMapping_next h
    exact ⟨n, installMapping_of_open table (s := s.withSt n) hs hm⟩
  | hostKeyDown key =>
    cases h
    exact ⟨n, congrArg Host.Outcome.next (deliverKey_withSt State.deliverKeyDown_withSt key s n)⟩
  | hostKeyUp key =>
    cases h
    exact ⟨n, congrArg Host.Outcome.next (deliverKey_withSt State.deliverKeyUp_withSt key s n)⟩
  | soundPulse => exact soundPulse_withSt n h

end Sys2Proof.Machine

namespace Sys2Proof

open Sys2Proof.Machine

/-- Settles O58: no event asks for ST, and the next event is the same with any ST. -/
theorem nothingButSoundDependsOnST : Obligations.NothingButSoundDependsOnST := by
  unfold Obligations.NothingButSoundDependsOnST
  intro s s' n h
  rw [step_eq_hostEvent] at h
  obtain ⟨m, hm⟩ := hostEvent_withSt n h
  exact ⟨m, (step_eq_hostEvent (s.withSt n)).trans hm⟩

end Sys2Proof
end
